-- ==== Sys2Proof/Word.lean ====
section
/-! DEFINITION. The word and byte types of the FixedBitset<N> block. -/

namespace Sys2Proof

/-- One storage word (10_state.md R21). A word has WW = 8, 16, 32 or 64 bits (00_scope.md R3); it is held in 64 bits, and in
every state of a block the bits at WW and above are 0 (`Machine.State.Masked`, notes/assumptions/5). -/
abbrev Word := BitVec 64

/-- One byte of the external image (20_memory.md R50). -/
abbrev Byte := BitVec 8

end Sys2Proof
end

