-- ==== Sys2Proof/Config.lean ====
section
/-! DEFINITION. What is fixed for one block instance: N, the byte order of the external image, and the free latency of the
clocked port layer. The constants derived from N are in Sys2Proof/Machine/Params.lean. -/

namespace Sys2Proof

/-- The open parameter BYTE_ORDER (00_scope.md R10, 20_memory.md R50). -/
inductive ByteOrder where
  | little
  | big
  deriving DecidableEq, Repr

/-- The parameters of one block instance: the bit count N with N >= 1 (00_scope.md R2: "N = 0 is not an instance"), and BYTE_ORDER
(R10). "it never changes during the life of a block instance". -/
structure Config where
  /-- N, the number of logical bits. -/
  n : Nat
  /-- N is positive (R2). -/
  n_pos : 1 ≤ n
  /-- BYTE_ORDER, read by the byte image only (20_memory.md R50); default little. -/
  byteOrder : ByteOrder := .little
  deriving DecidableEq, Repr

/-- The instance that `Machine.State.reset` shows: N = 65, the source's own worked example (95_test_vectors.md S8), BYTE_ORDER
little (00_scope.md R10). DESIGN CHOICE, notes/assumptions/1: every statement about the machine is about all N. -/
def Config.standard : Config where
  n := 65
  n_pos := by decide

/-- Free value: the cycles the port layer takes beyond the least one for a command. "finite and otherwise unspecified"
(30_encoding.md R61); "may differ between commands and between instances" (70_reset_and_hazards.md R166), so it depends on the
parameters, on which block it is, on how many commands that block has accepted, and on the command itself (its packed word and its
data bus). It has no body; notes/assumptions/6. -/
opaque Config.latency (c : Config) (block accepted word wdata : Nat) : Nat

end Sys2Proof
end

