-- ==== Sys2Proof/Machine/Params.lean ====
section
/-! DEFINITION. The constants of an instance, all functions of N (00_scope.md R3 to R7, 10_state.md R28). -/

namespace Sys2Proof

/-- WW, the word width in bits (00_scope.md R3; conflict C7). -/
def Config.ww (c : Config) : Nat :=
  if c.n > 32 then 64 else if c.n > 16 then 32 else if c.n > 8 then 16 else 8

/-- W, the number of storage words, ceil(N / 64) (00_scope.md R4; conflict C1). -/
def Config.w (c : Config) : Nat := (c.n + 63) / 64

/-- ONES, the all-ones word of WW bits (00_scope.md R5). -/
def Config.ones (c : Config) : Word := BitVec.ofNat 64 (2 ^ c.ww - 1)

/-- TOTAL, the storage width in bits (00_scope.md R5). -/
def Config.total (c : Config) : Nat := c.w * c.ww

/-- R, the bits used in the top word, 0 meaning all WW (00_scope.md R5). -/
def Config.r (c : Config) : Nat := c.n % c.ww

/-- LW = log2(WW) (00_scope.md R5). -/
def Config.lw (c : Config) : Nat := Nat.log2 c.ww

/-- PW, the bit length of N: the width of `cmd_pos` and `rsp_idx` (00_scope.md R5). -/
def Config.pw (c : Config) : Nat := Nat.log2 c.n + 1

/-- DW, the width of `cmd_wdata` (00_scope.md R5). -/
def Config.dw (c : Config) : Nat := 64 * c.w

/-- BYTES, the storage footprint in bytes (00_scope.md R5, R7; conflict C2). -/
def Config.bytes (c : Config) : Nat := c.w * c.ww / 8

/-- MSB_MASK, the mask of the top word (00_scope.md R6). -/
def Config.msbMask (c : Config) : Word :=
  if c.total = c.n then c.ones else BitVec.ofNat 64 (2 ^ c.r - 1)

end Sys2Proof
end

