-- ==== Sys2Proof/Syntax.lean ====
section
/-! DEFINITION. The 19 commands of the opcode map (30_encoding.md R65) as one inductive, and what the host can present at the port. -/

namespace Sys2Proof

/-- One command with the operands its rule names, after decoding. A field a command ignores (30_encoding.md R69) is no operand.
`pos` and `idx` are the unsigned value of the `cmd_pos` field (R64); `val` is true for 1; data operands are slices of `cmd_wdata` (R63). -/
inductive Instr where
  /-- 41_queries.md R91 -/
  | test (pos : Nat)
  /-- 41_queries.md R92 -/
  | all
  /-- 41_queries.md R93 -/
  | any
  /-- 41_queries.md R94 -/
  | none
  /-- 41_queries.md R95 -/
  | count
  /-- 41_queries.md R96 -/
  | size
  /-- 41_queries.md R97 -/
  | ffo
  /-- 41_queries.md R98 -/
  | ffz
  /-- 41_queries.md R99 -/
  | getm
  /-- 43_word_access.md R130 -/
  | rdw (idx : Nat)
  /-- 42_mutators.md R111 -/
  | seta
  /-- 42_mutators.md R112 -/
  | setb (pos : Nat) (val : Bool)
  /-- 42_mutators.md R113 -/
  | rsta
  /-- 42_mutators.md R114 -/
  | rstb (pos : Nat)
  /-- 42_mutators.md R115 -/
  | flpa
  /-- 42_mutators.md R116 -/
  | flpb (pos : Nat)
  /-- 40_construction.md R81: `imm` is the integer I = wdata[63:0]. -/
  | ldi (imm : Word)
  /-- 40_construction.md R82: `elems` is e[0], ..., e[W-1], reading order, most-significant word first. -/
  | lda (elems : List Word)
  /-- 43_word_access.md R131: `data` is the word D = wdata[WW-1:0]. -/
  | wrw (idx : Nat) (data : Word)
  deriving DecidableEq, Repr

/-- One command as the port sees it: the packed command word `{op, val, pos}` (30_encoding.md R62) and the data bus `cmd_wdata`
beside it (R63). Both are unsigned integers; a bit at or above the port's width has no wire and is read by nothing. -/
structure Command where
  word  : Nat
  wdata : Nat := 0
  deriving DecidableEq, Repr

/-- "The host has exactly two moves: apply reset ..., and present one command" (70_reset_and_hazards.md R168). -/
inductive HostMove where
  | reset
  | command (c : Command)
  deriving DecidableEq, Repr

end Sys2Proof
end

