-- ==== Sys2Proof/Machine/State.lean ====
section
/-! DEFINITION. The state of one block (10_state.md R20), the responses it gives (30_encoding.md R70), and its state after reset
(10_state.md R31). -/

namespace Sys2Proof.Machine

/-- FCAUSE (10_state.md R26). Code 3 is reserved and never written, so it is no constructor (93_implementation_defined.md U8). -/
inductive FCause where
  /-- 0: no fault has occurred since reset -/
  | none
  /-- 1: a bit position >= N or a word index >= W was presented (60_exceptions.md R142) -/
  | indexRange
  /-- 2: an opcode this instance does not implement was presented (60_exceptions.md R143) -/
  | illegalOp
  deriving DecidableEq, Repr

/-- A response (30_encoding.md R70): `fault` 1 bit, `bit` 1 bit, `idx` PW bits, `word` WW bits. A field a command does not set is 0. -/
structure Response where
  fault : Bool := false
  bit   : Bool := false
  idx   : Nat  := 0
  word  : Word := 0
  deriving DecidableEq, Repr

/-- One block with the moves its host has still to make and the responses it has given. The spec's own state is `words`, `fault`
and `fcause` (10_state.md R20); `cfg` is the instance's constants (R28); `cmds` and `rsps` are the model's own. -/
structure State where
  /-- The constants of the instance; no step changes them (10_state.md R28; notes/assumptions/1). -/
  cfg    : Config
  /-- The word array w[0..W-1], storage order, least significant word first (10_state.md R21; notes/assumptions/4). -/
  words  : List Word
  /-- FAULT, sticky (10_state.md R25). -/
  fault  : Bool
  /-- FCAUSE (10_state.md R26). -/
  fcause : FCause
  /-- The host's moves still to come, oldest first (70_reset_and_hazards.md R168; notes/assumptions/2). -/
  cmds   : List HostMove
  /-- The responses given since the last reset, oldest first (70_reset_and_hazards.md R169; notes/assumptions/3). -/
  rsps   : List Response
  deriving DecidableEq, Repr

/-- Reasons to stop with a fault: there is none. Both faults of the spec are STATES with FAULT = 1 whose contents and response
60_exceptions.md R145 gives, so the command that raises one answers a next state. Nothing raises this; nothing is unsafe in it. -/
inductive Fault where
  deriving DecidableEq, Repr

/-- Reasons to answer no state. -/
inductive Refusal where
  /-- An arm of `exec` that has no meaning yet would raise it; every arm has one, so nothing raises it. Safe. -/
  | notModelled (mnemonic : String)
  deriving DecidableEq, Repr

/-- The state right after reset of the instance `c`, no host move pending and no response given (10_state.md R31,
70_reset_and_hazards.md R160). -/
def State.resetFor (c : Config) : State where
  cfg := c
  words := List.replicate c.w 0
  fault := false
  fcause := .none
  cmds := []
  rsps := []

/-- The state right after reset (10_state.md R31) of the instance `Config.standard` (notes/assumptions/1). -/
def State.reset : State := State.resetFor Config.standard

end Sys2Proof.Machine
end

