-- ==== Sys2Proof/Machine/Flags.lean ====
section
/-! DEFINITION. FAULT, FCAUSE and STATUS as the host sees them (10_state.md R25 to R27, 30_encoding.md R60). There are no
condition codes (R25). -/

namespace Sys2Proof.Machine

/-- The 2-bit code of FCAUSE (10_state.md R26). -/
def causeCode : FCause → BitVec 2
  | .none => 0
  | .indexRange => 1
  | .illegalOp => 2

/-- The output port `sts_fault` (30_encoding.md R60). -/
def State.stsFault (s : State) : Bool := s.fault

/-- The output port `sts_cause` (30_encoding.md R60). -/
def State.stsCause (s : State) : BitVec 2 := causeCode s.fcause

/-- STATUS = `{FCAUSE[1:0], FAULT}`, 3 bits, read-only (10_state.md R27). -/
def State.status (s : State) : BitVec 3 := s.stsCause ++ BitVec.ofBool s.stsFault

end Sys2Proof.Machine
end

