-- ==== Sys2Proof/Machine/Ops.lean ====
section
/-! DEFINITION. The named operations of the block: the word primitives (00_scope.md R8), the indexer and extractor and the masked
word writer (20_memory.md R41 to R46), answering a command (30_encoding.md R71), taking a fault, refusing, and reset. -/

namespace Sys2Proof.Machine

/-! ## Word primitives -/

/-- popcount: the number of 1 bits of a WW-bit word (00_scope.md R8). -/
def popcount (c : Config) (v : Word) : Nat := (List.range c.ww).countP fun i => v.getLsbD i

/-- `~v` at the width of a word, ONES - v (00_scope.md section 5). -/
def notWord (c : Config) (v : Word) : Word := ~~~v &&& c.ones

/-- ctz: the index of the lowest 1 bit of a WW-bit word, WW for 0 (00_scope.md R8, D25). -/
def ctz (c : Config) (v : Word) : Nat :=
  ((List.range c.ww).find? fun i => v.getLsbD i).getD c.ww

/-- cto: the index of the lowest 0 bit of a WW-bit word; cto(v) = ctz(~v), WW for ONES (00_scope.md R8, D25). -/
def cto (c : Config) (v : Word) : Nat := ctz c (notWord c v)

/-! ## Indexer, masks, word read and the masked word writer -/

/-- IDX(pos) = (pos div WW, pos mod WW) (20_memory.md R41). -/
def idxOf (c : Config) (pos : Nat) : Nat × Nat := (pos / c.ww, pos % c.ww)

/-- BITMASK(k) = 1 << k (20_memory.md R42). -/
def bitMask (k : Nat) : Word := 1#64 <<< k

/-- WMASK(j): MSB_MASK for the top word, ONES for the others (20_memory.md R44). -/
def wMask (c : Config) (j : Nat) : Word := if j = c.w - 1 then c.msbMask else c.ones

/-- MemRead(j, WW) (20_memory.md R46). Every caller has checked j < W. -/
def memRead (s : State) (j : Nat) : Word := s.words.getD j 0

/-- The raw write `w[j] <- v` (00_scope.md section 5; 20_memory.md R47). -/
def rawWrite (s : State) (j : Nat) (v : Word) : State := { s with words := s.words.set j v }

/-- The masked word writer MemWrite(j, WW, v): `w[j] <- v & WMASK(j)` (20_memory.md R45). -/
def memWrite (s : State) (j : Nat) (v : Word) : State := rawWrite s j (v &&& wMask s.cfg j)

/-- `for j in 0..W-1: w[j] <- f(j)`, `f` taken on the state before the command (20_memory.md R54). -/
def rawWriteAll (s : State) (f : Nat → Word) : State :=
  { s with words := (List.range s.cfg.w).map f }

/-- `for j in 0..W-1: MemWrite(j, WW, f(j))`, `f` taken on the state before the command (20_memory.md R45, R54). -/
def memWriteAll (s : State) (f : Nat → Word) : State :=
  rawWriteAll s fun j => f j &&& wMask s.cfg j

/-- The extractor: bit k of word j, `(MemRead(j, WW) >> k) & 1` (20_memory.md R43). -/
def extract (s : State) (j k : Nat) : Bool := (memRead s j >>> k) &&& 1 == 1

/-- bit(pos) (10_state.md R23, 20_memory.md R43). -/
def State.bit (s : State) (pos : Nat) : Bool := extract s (idxOf s.cfg pos).1 (idxOf s.cfg pos).2

/-- "for every j in 0..W-1: P(MemRead(j, WW))". -/
def everyWord (s : State) (p : Nat → Word → Bool) : Bool :=
  (List.range s.cfg.w).all fun j => p j (memRead s j)

/-- "the least j in 0..W-1 with P(MemRead(j, WW))", if there is one. -/
def firstWord (s : State) (p : Word → Bool) : Option Nat :=
  (List.range s.cfg.w).find? fun j => p (memRead s j)

/-! ## Answering -/

/-- The command answers with `r`; the record of the run's responses grows by it (70_reset_and_hazards.md R169). -/
def respond (s : State) (r : Response) : State := { s with rsps := s.rsps ++ [r] }

/-- The response of a command that faults or is refused: (1, 0, 0, 0) (30_encoding.md R71). -/
def Response.faulted : Response := { fault := true }

/-- The response of a mutator or a load that completes: (0, 0, 0, 0) (30_encoding.md R71, 42_mutators.md R110). -/
def Response.done : Response := {}

/-- The response of TEST, ALL, ANY, NONE (30_encoding.md R71). -/
def Response.ofBit (b : Bool) : Response := { bit := b }

/-- The response of COUNT, SIZE, FFO, FFZ (30_encoding.md R71). -/
def Response.ofIdx (n : Nat) : Response := { idx := n }

/-- The response of GETM, RDW (30_encoding.md R71). -/
def Response.ofWord (v : Word) : Response := { word := v }

/-! ## Faults, refusal, reset -/

/-- `raise Fault(cause)` (60_exceptions.md R145): FAULT and FCAUSE are written, the word array is not, the response is (1,0,0,0).
Nothing is saved and control goes nowhere. -/
def takeFault (s : State) (cause : FCause) : State :=
  respond { s with fault := true, fcause := cause } Response.faulted

/-- `refuse` (60_exceptions.md R146): nothing changes, the response is (1,0,0,0). -/
def refuse (s : State) : State := respond s Response.faulted

/-- `if FAULT = 1 then refuse`, the first line of every command (60_exceptions.md R144, R146). -/
def unlessHalted (s : State) (body : State) : State := if s.fault then refuse s else body

/-- An opcode no instance implements (30_encoding.md R67): refused when halted, else ILLEGAL_OP (60_exceptions.md R143, R144). -/
def illegalOpcode (s : State) : State := unlessHalted s (takeFault s .illegalOp)

/-- Reset (70_reset_and_hazards.md R160): the reset state of 10_state.md R31, and the only way out of a fault (60_exceptions.md R147:
there is no return from one). A new run begins, with no response given (R169); the host's later moves stand. -/
def hardReset (s : State) : State := { State.resetFor s.cfg with cmds := s.cmds }

end Sys2Proof.Machine
end

