-- ==== Sys2Proof/Machine/Operands.lean ====
section
/-! DEFINITION. The two address operands of a command, a bit position and a word index (20_memory.md R40), with their range checks,
and the condition on the instance under which a load exists (30_encoding.md R68). The data operands are slices of the bus, cut
in Sys2Proof/Decode.lean. -/

namespace Sys2Proof.Machine

/-- A bit position operand: INDEX_RANGE if pos >= N, else the body at (j, k) = IDX(pos) (60_exceptions.md R142, 20_memory.md R41). -/
def atBit (s : State) (pos : Nat) (body : Nat → Nat → State) : State :=
  if pos ≥ s.cfg.n then takeFault s .indexRange
  else body (idxOf s.cfg pos).1 (idxOf s.cfg pos).2

/-- A word index operand: INDEX_RANGE if idx >= W, else the body (60_exceptions.md R142). -/
def atWord (s : State) (idx : Nat) (body : State) : State :=
  if idx ≥ s.cfg.w then takeFault s .indexRange else body

/-- An opcode that only some instances implement: ILLEGAL_OP where it does not exist (30_encoding.md R68, 60_exceptions.md R143). -/
def ifExists (s : State) (exists_ : Bool) (body : State) : State :=
  if exists_ then body else takeFault s .illegalOp

/-- LDI exists in instances with N <= 64 (30_encoding.md R68). -/
def ldiExists (c : Config) : Bool := c.n ≤ 64

/-- LDA exists in instances with N > 64 (30_encoding.md R68). -/
def ldaExists (c : Config) : Bool := c.n > 64

end Sys2Proof.Machine
end

