-- ==== Sys2Proof/Machine/Construction.lean ====
section
/-! DEFINITION. The construction commands LDI and LDA (spec/40_construction.md). -/

namespace Sys2Proof.Machine

/-- `LDI imm` (40_construction.md R81): MemWrite(0, WW, I[WW-1:0]). -/
def execLdi (imm : Word) (s : State) : Host.Outcome State Fault Refusal :=
  .next <| unlessHalted s <| ifExists s (ldiExists s.cfg) <|
    respond (memWrite s 0 (imm &&& s.cfg.ones)) .done

/-- `LDA e0, ..., e(W-1)` (40_construction.md R82): for j in 0..W-1, MemWrite(j, 64, e[W-1-j]). -/
def execLda (elems : List Word) (s : State) : Host.Outcome State Fault Refusal :=
  .next <| unlessHalted s <| ifExists s (ldaExists s.cfg) <|
    respond (memWriteAll s fun j => elems.getD (s.cfg.w - 1 - j) 0) .done

end Sys2Proof.Machine
end

