-- ==== Sys2Proof/Machine/Mutators.lean ====
section
/-! DEFINITION. The mutator commands SETA, SETB, RSTA, RSTB, FLPA, FLPB (spec/42_mutators.md). Every mutator that completes
answers (0, 0, 0, 0) (R110). -/

namespace Sys2Proof.Machine

/-- Clears bit k of word j: `w[j] <- MemRead(j, WW) & ~BITMASK(k)` (42_mutators.md R112, R114). -/
def clearBit (s : State) (j k : Nat) : State :=
  rawWrite s j (memRead s j &&& notWord s.cfg (bitMask k))

/-- `SETA` (42_mutators.md R111): MemWrite(j, WW, ONES) for every j. -/
def execSeta (s : State) : Host.Outcome State Fault Refusal :=
  .next <| unlessHalted s <| respond (memWriteAll s fun _ => s.cfg.ones) .done

/-- `SETB pos, val` (42_mutators.md R112): or with the bit mask, or and with its complement. -/
def execSetb (pos : Nat) (val : Bool) (s : State) : Host.Outcome State Fault Refusal :=
  .next <| unlessHalted s <| atBit s pos fun j k =>
    respond (if val then rawWrite s j (memRead s j ||| bitMask k) else clearBit s j k) .done

/-- `RSTA` (42_mutators.md R113): every word is cleared; FAULT and FCAUSE are not. -/
def execRsta (s : State) : Host.Outcome State Fault Refusal :=
  .next <| unlessHalted s <| respond (rawWriteAll s fun _ => 0) .done

/-- `RSTB pos` (42_mutators.md R114). -/
def execRstb (pos : Nat) (s : State) : Host.Outcome State Fault Refusal :=
  .next <| unlessHalted s <| atBit s pos fun j k => respond (clearBit s j k) .done

/-- `FLPA` (42_mutators.md R115): MemWrite(j, WW, ~MemRead(j, WW)) for every j; the mask is normative (conflict C5). -/
def execFlpa (s : State) : Host.Outcome State Fault Refusal :=
  .next <| unlessHalted s <| respond (memWriteAll s fun j => notWord s.cfg (memRead s j)) .done

/-- `FLPB pos` (42_mutators.md R116): xor with the bit mask. -/
def execFlpb (pos : Nat) (s : State) : Host.Outcome State Fault Refusal :=
  .next <| unlessHalted s <| atBit s pos fun j k =>
    respond (rawWrite s j (memRead s j ^^^ bitMask k)) .done

end Sys2Proof.Machine
end

