-- ==== Sys2Proof/Machine/Queries.lean ====
section
/-! DEFINITION. The query commands TEST, ALL, ANY, NONE, COUNT, SIZE, FFO, FFZ, GETM (spec/41_queries.md). No query writes the
word array (R90). -/

namespace Sys2Proof.Machine

/-- `TEST pos` (41_queries.md R91). -/
def execTest (pos : Nat) (s : State) : Host.Outcome State Fault Refusal :=
  .next <| unlessHalted s <| atBit s pos fun j k => respond s (.ofBit (extract s j k))

/-- `ALL` (41_queries.md R92): every word equals its mask (D10, conflict C3). -/
def execAll (s : State) : Host.Outcome State Fault Refusal :=
  .next <| unlessHalted s <| respond s (.ofBit (everyWord s fun j v => v == wMask s.cfg j))

/-- `ANY` (41_queries.md R93): some word is nonzero. -/
def execAny (s : State) : Host.Outcome State Fault Refusal :=
  .next <| unlessHalted s <| respond s (.ofBit (firstWord s fun v => v != 0).isSome)

/-- `NONE` (41_queries.md R94): every word is zero. -/
def execNone (s : State) : Host.Outcome State Fault Refusal :=
  .next <| unlessHalted s <| respond s (.ofBit (everyWord s fun _ v => v == 0))

/-- `COUNT` (41_queries.md R95): the sum of the population counts of the words. -/
def execCount (s : State) : Host.Outcome State Fault Refusal :=
  .next <| unlessHalted s <|
    respond s (.ofIdx ((List.range s.cfg.w).map fun j => popcount s.cfg (memRead s j)).sum)

/-- `SIZE` (41_queries.md R96). -/
def execSize (s : State) : Host.Outcome State Fault Refusal :=
  .next <| unlessHalted s <| respond s (.ofIdx s.cfg.n)

/-- `FFO` (41_queries.md R97): ctz of the first nonzero word, N if every word is zero. -/
def execFfo (s : State) : Host.Outcome State Fault Refusal :=
  .next <| unlessHalted s <| respond s <| .ofIdx <|
    (firstWord s fun v => v != 0).elim s.cfg.n fun j0 =>
      j0 * s.cfg.ww + ctz s.cfg (memRead s j0)

/-- `FFZ` (41_queries.md R98): cto of the first word that is not the raw ONES, N if every word is ONES. -/
def execFfz (s : State) : Host.Outcome State Fault Refusal :=
  .next <| unlessHalted s <| respond s <| .ofIdx <|
    (firstWord s fun v => v != s.cfg.ones).elim s.cfg.n fun j0 =>
      j0 * s.cfg.ww + cto s.cfg (memRead s j0)

/-- `GETM` (41_queries.md R99). -/
def execGetm (s : State) : Host.Outcome State Fault Refusal :=
  .next <| unlessHalted s <| respond s (.ofWord s.cfg.msbMask)

end Sys2Proof.Machine
end

