-- ==== Sys2Proof/Machine/WordAccess.lean ====
section
/-! DEFINITION. The word access commands RDW and WRW (spec/43_word_access.md). -/

namespace Sys2Proof.Machine

/-- `RDW idx` (43_word_access.md R130). -/
def execRdw (idx : Nat) (s : State) : Host.Outcome State Fault Refusal :=
  .next <| unlessHalted s <| atWord s idx <| respond s (.ofWord (memRead s idx))

/-- `WRW idx, data` (43_word_access.md R131): MemWrite(idx, WW, D). -/
def execWrw (idx : Nat) (data : Word) (s : State) : Host.Outcome State Fault Refusal :=
  .next <| unlessHalted s <| atWord s idx <| respond (memWrite s idx data) .done

end Sys2Proof.Machine
end

