-- ==== Sys2Proof/Machine/Dispatch.lean ====
section
/-! DEFINITION. One arm per command of the opcode map (30_encoding.md R65). -/

namespace Sys2Proof.Machine

/-- One accepted command is one atomic step (20_memory.md R54, 30_encoding.md R61). -/
def exec (i : Instr) (s : State) : Host.Outcome State Fault Refusal :=
  match i with
  | .test pos => Sys2Proof.Machine.execTest pos s
  | .all => Sys2Proof.Machine.execAll s
  | .any => Sys2Proof.Machine.execAny s
  | .none => Sys2Proof.Machine.execNone s
  | .count => Sys2Proof.Machine.execCount s
  | .size => Sys2Proof.Machine.execSize s
  | .ffo => Sys2Proof.Machine.execFfo s
  | .ffz => Sys2Proof.Machine.execFfz s
  | .getm => Sys2Proof.Machine.execGetm s
  | .rdw idx => Sys2Proof.Machine.execRdw idx s
  | .seta => Sys2Proof.Machine.execSeta s
  | .setb pos val => Sys2Proof.Machine.execSetb pos val s
  | .rsta => Sys2Proof.Machine.execRsta s
  | .rstb pos => Sys2Proof.Machine.execRstb pos s
  | .flpa => Sys2Proof.Machine.execFlpa s
  | .flpb pos => Sys2Proof.Machine.execFlpb pos s
  | .ldi imm => Sys2Proof.Machine.execLdi imm s
  | .lda elems => Sys2Proof.Machine.execLda elems s
  | .wrw idx data => Sys2Proof.Machine.execWrw idx data s

end Sys2Proof.Machine
end

