-- ==== Sys2Proof/WellFormed.lean ====
section
/-! DEFINITION. Which instructions have an encoding in an instance: every operand fits its field. -/

namespace Sys2Proof

/-- The value fits the PW-bit field `cmd_pos` (30_encoding.md R64). It need not be a valid position or index: an invalid one faults. -/
abbrev Config.fitsPos (c : Config) (p : Nat) : Bool := p < 2 ^ c.pw

/-- Every operand of the instruction fits the field or bus slice that carries it (30_encoding.md R62 to R64). Which opcodes the
instance implements is no matter of encoding (R68): LDI and LDA are words of every instance. -/
def Instr.wf (c : Config) : Instr → Bool
  | .test pos => c.fitsPos pos
  | .all => true
  | .any => true
  | .none => true
  | .count => true
  | .size => true
  | .ffo => true
  | .ffz => true
  | .getm => true
  | .rdw idx => c.fitsPos idx
  | .seta => true
  | .setb pos _ => c.fitsPos pos
  | .rsta => true
  | .rstb pos => c.fitsPos pos
  | .flpa => true
  | .flpb pos => c.fitsPos pos
  | .ldi _ => true
  | .lda elems => elems.length == c.w
  | .wrw idx data => c.fitsPos idx && data.toNat < 2 ^ c.ww

end Sys2Proof
end

