-- ==== Sys2Proof/Decode.lean ====
section
/-! DEFINITION. Decoding a presented command (30_encoding.md R62 to R69), total on any bits, and the encoder written from the
same tables. -/

namespace Sys2Proof

/-- Why the decoder refuses a command. -/
inductive DecodeError where
  /-- One of the 13 reserved opcodes (30_encoding.md R67): the block takes ILLEGAL_OP for it. -/
  | reservedOpcode (op : Nat)
  deriving DecidableEq, Repr

/-! The fields of the packed command word (30_encoding.md R62). -/

/-- `op`, bits PW+5 .. PW+1 of the command word. -/
def Command.op (c : Config) (m : Command) : Nat := (m.word >>> (c.pw + 1)) % 32

/-- `val`, bit PW of the command word. -/
def Command.val (c : Config) (m : Command) : Bool := m.word.testBit c.pw

/-- `pos`, bits PW-1 .. 0 of the command word, unsigned (30_encoding.md R64). -/
def Command.pos (c : Config) (m : Command) : Nat := m.word % 2 ^ c.pw

/-! The slices of the data bus (30_encoding.md R63). -/

/-- The 64-bit slice `wdata[64*k+63 : 64*k]`. -/
def busSlice (wdata k : Nat) : Word := BitVec.ofNat 64 (wdata >>> (64 * k))

/-- LDI's integer I = wdata[63:0]. -/
def ldiImm (wdata : Nat) : Word := busSlice wdata 0

/-- LDA's elements in reading order: e[i] = wdata[64*(W-i)-1 : 64*(W-1-i)], i in 0..W-1. -/
def ldaElems (c : Config) (wdata : Nat) : List Word :=
  (List.range c.w).map fun i => busSlice wdata (c.w - 1 - i)

/-- WRW's word D = wdata[WW-1:0]. -/
def wrwData (c : Config) (wdata : Nat) : Word := BitVec.ofNat 64 (wdata % 2 ^ c.ww)

/-- The opcode map (30_encoding.md R65). -/
def decode (c : Config) (m : Command) : Except DecodeError Instr :=
  match m.op c with
  | 0x01 => .ok (.test (m.pos c))
  | 0x02 => .ok .all
  | 0x03 => .ok .any
  | 0x04 => .ok .none
  | 0x05 => .ok .count
  | 0x06 => .ok .size
  | 0x07 => .ok .ffo
  | 0x08 => .ok .ffz
  | 0x09 => .ok .getm
  | 0x0A => .ok (.rdw (m.pos c))
  | 0x10 => .ok .seta
  | 0x11 => .ok (.setb (m.pos c) (m.val c))
  | 0x12 => .ok .rsta
  | 0x13 => .ok (.rstb (m.pos c))
  | 0x14 => .ok .flpa
  | 0x15 => .ok (.flpb (m.pos c))
  | 0x16 => .ok (.ldi (ldiImm m.wdata))
  | 0x17 => .ok (.lda (ldaElems c m.wdata))
  | 0x18 => .ok (.wrw (m.pos c) (wrwData c m.wdata))
  | op => .error (.reservedOpcode op)

/-! The encoder. -/

/-- The opcode column of 30_encoding.md R65. -/
def Instr.opcode : Instr → Nat
  | .test _ => 0x01
  | .all => 0x02
  | .any => 0x03
  | .none => 0x04
  | .count => 0x05
  | .size => 0x06
  | .ffo => 0x07
  | .ffz => 0x08
  | .getm => 0x09
  | .rdw _ => 0x0A
  | .seta => 0x10
  | .setb _ _ => 0x11
  | .rsta => 0x12
  | .rstb _ => 0x13
  | .flpa => 0x14
  | .flpb _ => 0x15
  | .ldi _ => 0x16
  | .lda _ => 0x17
  | .wrw _ _ => 0x18

/-- The canonical `pos` field: the operand, 0 where the command ignores the field (30_encoding.md R69). -/
def Instr.posField : Instr → Nat
  | .test pos => pos
  | .all => 0
  | .any => 0
  | .none => 0
  | .count => 0
  | .size => 0
  | .ffo => 0
  | .ffz => 0
  | .getm => 0
  | .rdw idx => idx
  | .seta => 0
  | .setb pos _ => pos
  | .rsta => 0
  | .rstb pos => pos
  | .flpa => 0
  | .flpb pos => pos
  | .ldi _ => 0
  | .lda _ => 0
  | .wrw idx _ => idx

/-- The canonical `val` field: 1 for a setting SETB alone (30_encoding.md R69). -/
def Instr.valField : Instr → Bool
  | .test _ => false
  | .all => false
  | .any => false
  | .none => false
  | .count => false
  | .size => false
  | .ffo => false
  | .ffz => false
  | .getm => false
  | .rdw _ => false
  | .seta => false
  | .setb _ val => val
  | .rsta => false
  | .rstb _ => false
  | .flpa => false
  | .flpb _ => false
  | .ldi _ => false
  | .lda _ => false
  | .wrw _ _ => false

/-- `{e[0], e[1], ..., e[W-1]}` as one unsigned integer (30_encoding.md R63). -/
def busOfElems (elems : List Word) : Nat :=
  elems.foldl (fun acc e => acc * 2 ^ 64 + e.toNat) 0

/-- The canonical data bus: the data operand, 0 where the command does not read the bus (30_encoding.md R63, R69). -/
def Instr.wdataField : Instr → Nat
  | .test _ => 0
  | .all => 0
  | .any => 0
  | .none => 0
  | .count => 0
  | .size => 0
  | .ffo => 0
  | .ffz => 0
  | .getm => 0
  | .rdw _ => 0
  | .seta => 0
  | .setb _ _ => 0
  | .rsta => 0
  | .rstb _ => 0
  | .flpa => 0
  | .flpb _ => 0
  | .ldi imm => imm.toNat
  | .lda elems => busOfElems elems
  | .wrw _ data => data.toNat

/-- The packed command word `{op[4:0], val, pos[PW-1:0]}` (30_encoding.md R62). -/
def packWord (c : Config) (op : Nat) (val : Bool) (pos : Nat) : Nat :=
  op * 2 ^ (c.pw + 1) + val.toNat * 2 ^ c.pw + pos

/-- The canonical command of an instruction (30_encoding.md R62, R69). -/
def encode (c : Config) (i : Instr) : Command where
  word := packWord c i.opcode i.valField i.posField
  wdata := i.wdataField

/-- The instruction read from an opcode-table row's bits: the table numbers the five bits of `cmd_op` as bits 4..0 and gives no bits
to `val`, `pos` and `wdata`, which are 0 here. The instance is `Config.standard`; which instruction is read does not depend on N. -/
def tableCommand (c : Config) (w : Nat) : Command where
  word := packWord c (w % 32) false 0

/-- The decoder's answer for the bits of an opcode-table row (the host's numbering: bits 4..0 are `cmd_op`). -/
def decodeTableWord (_nbits w : Nat) : Option Instr :=
  (decode Config.standard (tableCommand Config.standard w)).toOption

end Sys2Proof
end

