-- ==== Sys2Proof/Machine/Fetch.lean ====
section
/-! DEFINITION. Taking the host's next move (70_reset_and_hazards.md R168) and decoding a presented command. -/

namespace Sys2Proof.Machine

/-- What the block is to do next, with the state from which the move has been taken. -/
inductive Fetched where
  /-- No move is pending: the block waits and holds its state (60_exceptions.md R153, 70_reset_and_hazards.md R169). -/
  | idle
  /-- The host applies reset (70_reset_and_hazards.md R160). -/
  | reset (s : State)
  /-- A command of the opcode map was presented. -/
  | instr (i : Instr) (s : State)
  /-- A reserved opcode was presented (30_encoding.md R67). -/
  | reserved (s : State)
  deriving DecidableEq, Repr

/-- Takes the oldest pending move. -/
def fetch (s : State) : Fetched :=
  match s.cmds with
  | [] => .idle
  | .reset :: rest => .reset { s with cmds := rest }
  | .command m :: rest =>
    match decode s.cfg m with
    | .ok i => .instr i { s with cmds := rest }
    | .error _ => .reserved { s with cmds := rest }

/-- The host presents `m` before any other move it has pending. -/
def State.present (s : State) (m : Command) : State := { s with cmds := .command m :: s.cmds }

end Sys2Proof.Machine
end

