-- ==== Sys2Proof/Machine/Step.lean ====
section
/-! DEFINITION. One step of the machine: one host move taken and carried out whole (20_memory.md R54, 30_encoding.md R61). -/

namespace Sys2Proof.Machine

/-- One host move. With none pending the block waits and holds its state (70_reset_and_hazards.md R169). -/
def step (s : State) : Host.Outcome State Fault Refusal :=
  match fetch s with
  | .idle => .next s
  | .reset t => .next (hardReset t)
  | .instr i t => exec i t
  | .reserved t => .next (illegalOpcode t)

/-- The state in which the host presents, as its next move, the command whose opcode-table bits are `w` (bits 4..0 are `cmd_op`);
`val`, `pos` and `wdata`, to which the table gives no bits, are 0. -/
def State.withFetchWord (s : State) (_nbits w : Nat) : State := s.present (tableCommand s.cfg w)

end Sys2Proof.Machine
end

