-- ==== Sys2Proof/Machine/Assembler.lean ====
section
/-! DEFINITION. The assembler text of 30_encoding.md R72 and R73: one command per line, mnemonics in capitals, numbers decimal or 0x
hexadecimal, a semicolon starting a comment. Lines are lists of characters. -/

namespace Sys2Proof.Machine

/-- The pieces of a line. -/
inductive Token where
  | name (cs : List Char)
  | comma
  | lbrace
  | rbrace
  deriving DecidableEq, Repr

/-- Ends the name read so far (kept in reverse), if any. -/
def endName (cur : List Char) (rest : List Token) : List Token :=
  if cur.isEmpty then rest else .name cur.reverse :: rest

/-- The tokens of a line; 123 and 125 are the codes of the opening and closing brace. -/
def tokens : List Char → List Char → List Token
  | [], cur => endName cur []
  | ch :: rest, cur =>
    if ch = ';' then endName cur []
    else if ch = ' ' ∨ ch = '\t' then endName cur (tokens rest [])
    else if ch = ',' then endName cur (.comma :: tokens rest [])
    else if ch.toNat = 123 then endName cur (.lbrace :: tokens rest [])
    else if ch.toNat = 125 then endName cur (.rbrace :: tokens rest [])
    else tokens rest (ch :: cur)

/-- The value of a digit in base 10 or 16; both cases of a hexadecimal letter are read (notes/assumptions/9). -/
def digitOf (base : Nat) (ch : Char) : Option Nat :=
  let k := ch.toNat
  let d := if 48 ≤ k ∧ k ≤ 57 then k - 48
    else if 65 ≤ k ∧ k ≤ 70 then k - 55
    else if 97 ≤ k ∧ k ≤ 102 then k - 87
    else base
  if d < base then some d else none

/-- A nonempty digit string. -/
def digitsOf (base : Nat) (cs : List Char) : Option Nat :=
  if cs.isEmpty then none
  else cs.foldl (fun acc ch => acc.bind fun a => (digitOf base ch).map fun d => a * base + d) (some 0)

/-- A number, decimal or 0x hexadecimal. -/
def numberOf : List Char → Option Nat
  | '0' :: 'x' :: ds => digitsOf 16 ds
  | ds => digitsOf 10 ds

/-- A number below `2^bits`. -/
def numberBelow (bits : Nat) (cs : List Char) : Option Nat :=
  (numberOf cs).filter fun k => k < 2 ^ bits

/-- The one-bit operand of SETB. -/
def bitOf (cs : List Char) : Option Bool := (numberBelow 1 cs).map fun k => k == 1

/-- The elements of an LDA literal up to its closing brace, which ends the line. -/
def elemsOf : List Token → Option (List Word)
  | [.name a, .rbrace] => (numberBelow 64 a).map fun k => [BitVec.ofNat 64 k]
  | .name a :: .comma :: rest =>
    (numberBelow 64 a).bind fun k => (elemsOf rest).map fun es => BitVec.ofNat 64 k :: es
  | _ => none

/-- The commands without operands. -/
def nullary (cs : List Char) : Option Instr :=
  if cs = ['A', 'L', 'L'] then some .all
  else if cs = ['A', 'N', 'Y'] then some .any
  else if cs = ['N', 'O', 'N', 'E'] then some .none
  else if cs = ['C', 'O', 'U', 'N', 'T'] then some .count
  else if cs = ['S', 'I', 'Z', 'E'] then some .size
  else if cs = ['F', 'F', 'O'] then some .ffo
  else if cs = ['F', 'F', 'Z'] then some .ffz
  else if cs = ['G', 'E', 'T', 'M'] then some .getm
  else if cs = ['S', 'E', 'T', 'A'] then some .seta
  else if cs = ['R', 'S', 'T', 'A'] then some .rsta
  else if cs = ['F', 'L', 'P', 'A'] then some .flpa
  else none

/-- The commands with one number; `SETB pos` means `SETB pos, 1` (30_encoding.md R73). -/
def unary (c : Config) (cs a : List Char) : Option Instr :=
  if cs = ['L', 'D', 'I'] then (numberBelow 64 a).map fun k => .ldi (BitVec.ofNat 64 k)
  else (numberBelow c.pw a).bind fun k =>
    if cs = ['T', 'E', 'S', 'T'] then some (.test k)
    else if cs = ['R', 'D', 'W'] then some (.rdw k)
    else if cs = ['S', 'E', 'T', 'B'] then some (.setb k true)
    else if cs = ['R', 'S', 'T', 'B'] then some (.rstb k)
    else if cs = ['F', 'L', 'P', 'B'] then some (.flpb k)
    else none

/-- The commands with two numbers. -/
def binary (c : Config) (cs a b : List Char) : Option Instr :=
  (numberBelow c.pw a).bind fun k =>
    if cs = ['S', 'E', 'T', 'B'] then (bitOf b).map fun v => .setb k v
    else if cs = ['W', 'R', 'W'] then (numberBelow c.ww b).map fun d => .wrw k (BitVec.ofNat 64 d)
    else none

/-- One line's command, before the instance's constraints. -/
def parseTokens (c : Config) : List Token → Option Instr
  | [.name m] => nullary m
  | [.name m, .name a] => unary c m a
  | [.name m, .name a, .comma, .name b] => binary c m a b
  | .name m :: .lbrace :: rest => if m = ['L', 'D', 'A'] then (elemsOf rest).map .lda else none
  | _ => none

/-- What the assembler accepts in an instance: "rejects LDI when N > 64 and LDA when N <= 64, and an LDA whose element count is
not W" (30_encoding.md R72). -/
def accepts (c : Config) : Instr → Bool
  | .ldi _ => c.n ≤ 64
  | .lda elems => c.n > 64 && elems.length == c.w
  | _ => true

/-- Assembles one line: none if it is rejected (30_encoding.md R72). -/
def assembleLine (c : Config) (line : List Char) : Option Instr :=
  (parseTokens c (tokens line [])).filter (accepts c)

/-- Assembles a text, line by line; a line with nothing before its comment holds no command. -/
def assemble (c : Config) : List (List Char) → Option (List Instr)
  | [] => some []
  | line :: rest =>
    if tokens line [] = [] then assemble c rest
    else (assembleLine c line).bind fun i => (assemble c rest).map fun is => i :: is

end Sys2Proof.Machine
end

