-- ==== Sys2Proof/Machine/Port.lean ====
section
/-! DEFINITION. The clocked command port (30_encoding.md R60, R61; 70_reset_and_hazards.md R160, R163): a layer over the
command-level step, one rising edge of `clk` at a time. The command-level model "sees none of this" (R61) and nothing in it
depends on this file. -/

namespace Sys2Proof.Machine

/-- The input ports at a rising edge (30_encoding.md R60). -/
structure PortIn where
  rst      : Bool := false
  cmdValid : Bool := false
  cmdOp    : BitVec 5 := 0
  cmdVal   : Bool := false
  cmdPos   : Nat := 0
  cmdWdata : Nat := 0
  deriving DecidableEq, Repr

/-- The output ports at a rising edge (30_encoding.md R60). `rsp` is the four `rsp_*` fields where `rsp_valid` is 1 and none where it
is 0: the spec gives the fields no value then. -/
structure PortOut where
  cmdReady : Bool
  rsp      : Option Response
  stsFault : Bool
  stsCause : BitVec 2
  deriving DecidableEq, Repr

/-- The output `rsp_valid`. -/
def PortOut.rspValid (o : PortOut) : Bool := o.rsp.isSome

/-- The block with its port: at most one command in flight, with the edges left before its response edge (R61). -/
structure PortState where
  core     : State
  inFlight : Option (Command × Nat)
  /-- Which block this is, among all instances of one N too: the model's own, read by the free latency only
  (notes/assumptions/6). No edge changes it. -/
  block    : Nat
  /-- How many commands have been accepted: the model's own, read by the free latency only (notes/assumptions/6). -/
  accepted : Nat
  deriving DecidableEq, Repr

/-- The port layer of block number `block` after reset (70_reset_and_hazards.md R160). -/
def PortState.resetFor (c : Config) (block : Nat) : PortState where
  core := State.resetFor c
  inFlight := none
  block := block
  accepted := 0

/-- The free latency of the command that this block accepts next (70_reset_and_hazards.md R166; notes/assumptions/6). -/
def PortState.latency (p : PortState) (m : Command) : Nat :=
  Config.latency p.core.cfg p.block p.accepted m.word m.wdata

/-- The command the input ports carry (30_encoding.md R60, R62); `cmd_pos` has PW wires. -/
def PortIn.command (c : Config) (i : PortIn) : Command where
  word := packWord c i.cmdOp.toNat i.cmdVal (i.cmdPos % 2 ^ c.pw)
  wdata := i.cmdWdata

/-- The outputs for a state of the block. -/
def outputs (s : State) (ready : Bool) (rsp : Option Response) : PortOut where
  cmdReady := ready
  rsp := rsp
  stsFault := s.stsFault
  stsCause := s.stsCause

/-- One rising edge: reset wins (R160, R163); else a command in flight moves on or answers; else a presented command is accepted
(R61). DEDUCED: at the response edge the status outputs show the state the command left (notes/assumptions/7). DESIGN CHOICE: at an
edge with `rst` = 1 they show FAULT and FCAUSE before the reset, and at the acceptance edge and the waiting edges of a command in
flight FAULT and FCAUSE before the command: the spec does not say which (70_reset_and_hazards.md R169; notes/assumptions/15). -/
def tick (p : PortState) (i : PortIn) : Host.Outcome (PortState × PortOut) Fault Refusal :=
  if i.rst then
    .next ({ p with core := hardReset p.core, inFlight := none }, outputs p.core false none)
  else
    match p.inFlight with
    | none =>
      if i.cmdValid then
        let m := i.command p.core.cfg
        .next ({ p with inFlight := some (m, p.latency m), accepted := p.accepted + 1 },
               outputs p.core true none)
      else .next (p, outputs p.core true none)
    | some (m, k + 1) => .next ({ p with inFlight := some (m, k) }, outputs p.core false none)
    | some (m, 0) =>
      match step (p.core.present m) with
      | .next t => .next ({ p with core := t, inFlight := none }, outputs t false t.rsps.getLast?)
      | .fault r => .fault r
      | .refused r => .refused r

/-- The clock runs over a list of inputs; the outputs of every edge, in order. -/
def ticks : PortState → List PortIn → Host.Outcome (PortState × List PortOut) Fault Refusal
  | p, [] => .next (p, [])
  | p, i :: rest =>
    match tick p i with
    | .next (q, o) =>
      match ticks q rest with
      | .next (r, os) => .next (r, o :: os)
      | .fault e => .fault e
      | .refused e => .refused e
    | .fault e => .fault e
    | .refused e => .refused e

end Sys2Proof.Machine
end

