-- ==== Sys2Proof/Machine/Image.lean ====
section
/-! DEFINITION. The external image of a block, as words and as bytes (20_memory.md R49, R50, R58), and the command lists that write an
image back (43_word_access.md R132). No command depends on the byte order. -/

namespace Sys2Proof.Machine

/-- The image in words: storage order, least significant word first (20_memory.md R49); what `RDW 0`, ..., `RDW W-1` return. -/
def imageWords (s : State) : List Word := (List.range s.cfg.w).map fun j => memRead s j

/-- The 8-bit slice `v[8*b+7 : 8*b]`. -/
def byteSlice (v : Word) (b : Nat) : Byte := (v >>> (8 * b)).setWidth 8

/-- Which slice of a word is its b-th image byte: slice b if little, slice WW/8-1-b if big (20_memory.md R50). -/
def byteIndex (c : Config) (b : Nat) : Nat :=
  match c.byteOrder with
  | .little => b
  | .big => c.ww / 8 - 1 - b

/-- The WW/8 image bytes of one word (20_memory.md R50). -/
def wordBytes (c : Config) (v : Word) : List Byte :=
  (List.range (c.ww / 8)).map fun b => byteSlice v (byteIndex c b)

/-- IMAGE_BYTES (20_memory.md R50). -/
def imageBytes (s : State) : List Byte := (imageWords s).flatMap (wordBytes s.cfg)

/-- The word whose image bytes are the WW/8 bytes of `bs` from `at_` on. -/
def wordAt (c : Config) (bs : List Byte) (at_ : Nat) : Word :=
  (List.range (c.ww / 8)).foldl
    (fun acc b => acc ||| ((bs.getD (at_ + b) 0).setWidth 64 <<< (8 * byteIndex c b))) 0

/-- The words a byte image stands for: the collaborator's way back (20_memory.md R50, R58). -/
def wordsOfBytes (c : Config) (bs : List Byte) : List Word :=
  (List.range c.w).map fun j => wordAt c bs (j * (c.ww / 8))

/-- Writing an image back word by word: `WRW 0, img[0]; ...; WRW W-1, img[W-1]` (43_word_access.md R132). -/
def writeBack (c : Config) (img : List Word) : List Instr :=
  (List.range c.w).map fun j => .wrw j (img.getD j 0)

/-- Writing an image back by one load: LDI for N <= 64, LDA in reading order for N > 64 (43_word_access.md R132). -/
def loadBack (c : Config) (img : List Word) : Instr :=
  if c.n ≤ 64 then .ldi (img.getD 0 0) else .lda img.reverse

end Sys2Proof.Machine
end

