-- ==== Sys2Proof/Machine/IntegerView.lean ====
section
/-! DEFINITION. The integer view V of the word array (10_state.md R24) and the second, independent statement of every command in
terms of it (40_construction.md R83, 41_queries.md R100, 42_mutators.md R119; for GETM, RDW and WRW the slice of V that is the
word, DEDUCED, notes/assumptions/8). It mentions no word, mask or scan of words. -/

namespace Sys2Proof.Machine

/-- The sum over j of `w[j] * 2^(j*WW)` (10_state.md R24). -/
def valueOf (ww : Nat) : List Word → Nat
  | [] => 0
  | v :: vs => v.toNat + 2 ^ ww * valueOf ww vs

/-- V (10_state.md R24). -/
def State.value (s : State) : Nat := valueOf s.cfg.ww s.words

/-- A block in the integer view: the N-bit integer V in place of the word array. -/
structure IntBlock where
  cfg    : Config
  v      : Nat
  fault  : Bool
  fcause : FCause
  deriving DecidableEq, Repr

/-- The integer view of a state. -/
def State.intBlock (s : State) : IntBlock where
  cfg := s.cfg
  v := s.value
  fault := s.fault
  fcause := s.fcause

/-- The least p < n with `f p`, or n (41_queries.md R100). -/
def leastOr (n : Nat) (f : Nat → Bool) : Nat := ((List.range n).find? f).getD n

/-- The number of p < n with `f p` (41_queries.md R100). -/
def countBelow (n : Nat) (f : Nat → Bool) : Nat := (List.range n).countP f

/-- A fault in the integer view (60_exceptions.md R145). -/
def intFault (b : IntBlock) (cause : FCause) : IntBlock × Response :=
  ({ b with fault := true, fcause := cause }, .faulted)

/-- V with slice `idx` of WW bits replaced by `d`, cut to N bits. -/
def intPutWord (b : IntBlock) (idx d : Nat) : Nat :=
  let lo := idx * b.cfg.ww
  let hi := lo + b.cfg.ww
  (b.v % 2 ^ lo + d * 2 ^ lo + b.v / 2 ^ hi * 2 ^ hi) % 2 ^ b.cfg.n

/-- Every command in the integer view. -/
def intExec (i : Instr) (b : IntBlock) : IntBlock × Response :=
  let n := b.cfg.n
  if b.fault then (b, .faulted) else
  match i with
  | .test p => if p < n then (b, .ofBit (b.v.testBit p)) else intFault b .indexRange
  | .all => (b, .ofBit (b.v == 2 ^ n - 1))
  | .any => (b, .ofBit (b.v != 0))
  | .none => (b, .ofBit (b.v == 0))
  | .count => (b, .ofIdx (countBelow n b.v.testBit))
  | .size => (b, .ofIdx n)
  | .ffo => (b, .ofIdx (leastOr n b.v.testBit))
  | .ffz => (b, .ofIdx (leastOr n fun p => !b.v.testBit p))
  | .getm => (b, .ofWord (BitVec.ofNat 64 (2 ^ (n - (b.cfg.w - 1) * b.cfg.ww) - 1)))
  | .rdw idx =>
    if idx < b.cfg.w then (b, .ofWord (BitVec.ofNat 64 (b.v / 2 ^ (idx * b.cfg.ww) % 2 ^ b.cfg.ww)))
    else intFault b .indexRange
  | .seta => ({ b with v := 2 ^ n - 1 }, .done)
  | .setb p val =>
    if p < n then ({ b with v := if val then b.v ||| 2 ^ p else (b.v ||| 2 ^ p) ^^^ 2 ^ p }, .done)
    else intFault b .indexRange
  | .rsta => ({ b with v := 0 }, .done)
  | .rstb p =>
    if p < n then ({ b with v := (b.v ||| 2 ^ p) ^^^ 2 ^ p }, .done) else intFault b .indexRange
  | .flpa => ({ b with v := 2 ^ n - 1 - b.v }, .done)
  | .flpb p => if p < n then ({ b with v := b.v ^^^ 2 ^ p }, .done) else intFault b .indexRange
  | .ldi imm => if n ≤ 64 then ({ b with v := imm.toNat % 2 ^ n }, .done) else intFault b .illegalOp
  | .lda elems =>
    if n > 64 then ({ b with v := busOfElems elems % 2 ^ n }, .done) else intFault b .illegalOp
  | .wrw idx d =>
    if idx < b.cfg.w then ({ b with v := intPutWord b idx d.toNat }, .done) else intFault b .indexRange

end Sys2Proof.Machine
end

