-- ==== Sys2Proof/Safety.lean ====
section
/-! DEFINITION. What holds in every state of a block, and what a successful run is, in the terms claims use. -/

namespace Sys2Proof.Machine

/-- The word array has W words (10_state.md R21), each within WW bits, and satisfies the MSB masking invariant
`w[W-1] & ~MSB_MASK = 0` (10_state.md R22): no word has a bit outside its WMASK (20_memory.md R44). -/
abbrev State.Masked (s : State) : Prop :=
  s.words.length = s.cfg.w ∧ ∀ j, j < s.cfg.w → memRead s j &&& ~~~wMask s.cfg j = 0

/-- FAULT = 1 if and only if FCAUSE != 0 (10_state.md R26). -/
abbrev State.CauseAgrees (s : State) : Prop := s.fault = true ↔ s.fcause ≠ .none

/-- FAULT = 1 if and only if some response of the run had fault = 1 (70_reset_and_hazards.md R169). -/
abbrev State.RunAgrees (s : State) : Prop := s.fault = true ↔ ∃ r ∈ s.rsps, r.fault = true

/-- The response fits its ports, `idx` at most N and `word` within WW bits (30_encoding.md R70), and carries no data when it says
fault (R71). -/
abbrev Response.Fits (c : Config) (r : Response) : Prop :=
  r.idx ≤ c.n ∧ r.word &&& ~~~c.ones = 0 ∧ (r.fault = true → r = .faulted)

/-- The invariant of the machine: it holds after reset and every step keeps it. -/
abbrev State.Inv (s : State) : Prop :=
  s.Masked ∧ s.CauseAgrees ∧ s.RunAgrees ∧ ∀ r ∈ s.rsps, r.Fits s.cfg

/-- The host's contract for one command: no index out of range, no opcode the instance lacks (70_reset_and_hazards.md R165;
60_exceptions.md R141 to R143). -/
def legal (c : Config) : Instr → Bool
  | .test pos => pos < c.n
  | .all => true
  | .any => true
  | .none => true
  | .count => true
  | .size => true
  | .ffo => true
  | .ffz => true
  | .getm => true
  | .rdw idx => idx < c.w
  | .seta => true
  | .setb pos _ => pos < c.n
  | .rsta => true
  | .rstb pos => pos < c.n
  | .flpa => true
  | .flpb pos => pos < c.n
  | .ldi _ => c.n ≤ 64
  | .lda _ => c.n > 64
  | .wrw idx _ => idx < c.w

/-- A run that has ended (no host move left) and was successful: FAULT = 0 in its final state (70_reset_and_hazards.md R169). -/
abbrev State.Successful (s : State) : Prop := s.cmds = [] ∧ s.fault = false

/-- A list of instructions issued in order, each after the previous one has answered (10_state.md R29). -/
def execList : List Instr → State → Host.Outcome State Fault Refusal
  | [], s => .next s
  | i :: rest, s =>
    match exec i s with
    | .next t => execList rest t
    | .fault r => .fault r
    | .refused r => .refused r

end Sys2Proof.Machine
end

