-- ==== Sys2Proof/Certificates/Slice0/Obligations.lean ====
section
/-! DEFINITION. The statements for the provers, from the numbered rules of spec/. Every statement about the block is about all N
(the instance is a field of the state). A premise `s.Masked` or `s.Inv` is the invariant of Sys2Proof/Safety.lean, stated of the
reset state and of every step below. In a statement that gives a next state as `{ s with words := ..., rsps := ... }`, every
field not named (the instance, FAULT, FCAUSE, the host's later moves) is unchanged. The fields `cmds` and `rsps` are the model's own
(notes/assumptions/2 and 3). -/

open Sys2Proof Sys2Proof.Machine

/-! ## Parameters, primitives, storage access -/

/-- 00_scope.md R3 to R7: the word width is one of four, the storage holds all N bits and exactly N bits when R = 0, one word up to
N = 64 and two or more 64-bit words above, PW bits hold N, and the footprint is the list of R7. -/
def Obligations.StorageSizesFollowFromN : Prop :=
  ∀ c : Config,
    c.ww ∈ [8, 16, 32, 64] ∧ c.ww = 2 ^ c.lw ∧ c.n ≤ c.total ∧ (c.total = c.n ↔ c.r = 0) ∧
    (c.n ≤ 64 → c.w = 1) ∧ (64 < c.n → c.ww = 64 ∧ 2 ≤ c.w) ∧
    64 * (c.w - 1) < c.n ∧ c.n ≤ 64 * c.w ∧
    2 ^ (c.pw - 1) ≤ c.n ∧ c.n < 2 ^ c.pw ∧ c.w < 2 ^ c.pw ∧ c.dw = 64 * c.w ∧
    8 * c.bytes = c.total ∧
    c.bytes = if c.n ≤ 8 then 1 else if c.n ≤ 16 then 2 else if c.n ≤ 32 then 4 else 8 * c.w

/-- 00_scope.md R6, 20_memory.md R44: the mask of word j has exactly the bits whose storage position is below N. -/
def Obligations.WordMaskKeepsExactlyTheLogicalBits : Prop :=
  ∀ (c : Config) (j k : Nat), j < c.w →
    ((wMask c j).getLsbD k = true ↔ k < c.ww ∧ j * c.ww + k < c.n)

/-- 00_scope.md R8: on WW-bit words popcount counts the 1 bits, ctz is the index of the lowest 1 bit of a nonzero word and cto of
the lowest 0 bit of a word that is not ONES; ctz(0) = cto(ONES) = WW. -/
def Obligations.WordPrimitivesCountAndFindBits : Prop :=
  ∀ (c : Config) (v : Word), v &&& ~~~c.ones = 0 →
    (popcount c v = (Finset.univ.filter fun i : Fin 64 => v.getLsbD i = true).card ∧ popcount c v ≤ c.ww) ∧
    (v ≠ 0 → ctz c v < c.ww ∧ v.getLsbD (ctz c v) = true ∧ ∀ i, i < ctz c v → v.getLsbD i = false) ∧
    (v ≠ c.ones → cto c v < c.ww ∧ v.getLsbD (cto c v) = false ∧ ∀ i, i < cto c v → v.getLsbD i = true) ∧
    ctz c 0 = c.ww ∧ cto c c.ones = c.ww

/-- 20_memory.md R41: for pos below N the indexer gives j = pos >> LW and k = pos[LW-1:0], with j at most W-1, k at most WW-1, and
never a masked-off bit of the top word. -/
def Obligations.IndexerAddressesALogicalBit : Prop :=
  ∀ (c : Config) (pos j k : Nat), pos < c.n → idxOf c pos = (j, k) →
    j = pos / c.ww ∧ k = pos % c.ww ∧ j = pos >>> c.lw ∧ k = pos % 2 ^ c.lw ∧
    j ≤ c.w - 1 ∧ k ≤ c.ww - 1 ∧ (j = c.w - 1 → c.r ≠ 0 → k < c.r)

/-- 20_memory.md R45: MemWrite(j, WW, v) stores v & WMASK(j) in word j and nothing anywhere else; a word below the top stores a
WW-bit v unchanged, the top word its low R bits when R != 0 and v unchanged when R = 0; after a write of the top word the MSB
masking invariant holds whatever v was; storing v and then masking leaves the same state. -/
def Obligations.MaskedWriterStoresUnderTheMask : Prop :=
  ∀ (s : State) (j : Nat) (v : Word), s.words.length = s.cfg.w → j < s.cfg.w →
    memWrite s j v = { s with words := (memWrite s j v).words } ∧
    (memWrite s j v).words.length = s.cfg.w ∧
    memRead (memWrite s j v) j = v &&& wMask s.cfg j ∧
    (∀ k, k ≠ j → memRead (memWrite s j v) k = memRead s k) ∧
    (j ≠ s.cfg.w - 1 → v &&& ~~~s.cfg.ones = 0 → memRead (memWrite s j v) j = v) ∧
    (j = s.cfg.w - 1 → s.cfg.r = 0 → v &&& ~~~s.cfg.ones = 0 → memRead (memWrite s j v) j = v) ∧
    (j = s.cfg.w - 1 → s.cfg.r ≠ 0 → (memRead (memWrite s j v) j).toNat = v.toNat % 2 ^ s.cfg.r) ∧
    (j = s.cfg.w - 1 → memRead (memWrite s j v) j &&& ~~~s.cfg.msbMask = 0) ∧
    rawWrite (rawWrite s j v) j (memRead (rawWrite s j v) j &&& wMask s.cfg j) = memWrite s j v

/-- 10_state.md R24: V is the sum of w[j] * 2^(j*WW); bit(p) = V[p] for p below N; the masking invariant is exactly V < 2^N; and the
masked word arrays of an instance are in one-to-one correspondence with the integers below 2^N. -/
def Obligations.IntegerViewIsTheWordArray : Prop :=
  (∀ s : State, s.words.length = s.cfg.w → (∀ j, j < s.cfg.w → memRead s j &&& ~~~s.cfg.ones = 0) →
    s.value = ((List.range s.cfg.w).map fun j => (memRead s j).toNat * 2 ^ (j * s.cfg.ww)).sum ∧
    (∀ p, p < s.cfg.n → s.bit p = s.value.testBit p) ∧
    (memRead s (s.cfg.w - 1) &&& ~~~s.cfg.msbMask = 0 ↔ s.value < 2 ^ s.cfg.n)) ∧
  (∀ (s t : State), s.Masked → t.Masked → s.cfg = t.cfg → s.value = t.value → s.words = t.words) ∧
  (∀ (c : Config) (v : Nat), v < 2 ^ c.n → ∃ s : State, s.cfg = c ∧ s.Masked ∧ s.value = v)

/-! ## Reset -/

/-- 10_state.md R31: after reset every word is 0, FAULT and FCAUSE are 0, V = 0, every bit is 0, the masking invariant holds and
STATUS is 000. That `cmds` and `rsps` are empty is the model's (notes/assumptions/2 and 3), and so is the last clause: that
`State.reset` shows the instance N = 65 with BYTE_ORDER little (notes/assumptions/1). -/
def Obligations.ResetStateIsDefaultConstruction : Prop :=
  (∀ c : Config, (State.resetFor c).cfg = c ∧ (State.resetFor c).words.length = c.w ∧
    (∀ j, memRead (State.resetFor c) j = 0) ∧
    (State.resetFor c).fault = false ∧ (State.resetFor c).fcause = .none ∧
    (State.resetFor c).value = 0 ∧ (∀ p, (State.resetFor c).bit p = false) ∧ (State.resetFor c).Masked ∧
    (State.resetFor c).status = 0 ∧ (State.resetFor c).cmds = [] ∧ (State.resetFor c).rsps = []) ∧
  State.reset = State.resetFor Config.standard

/-- 70_reset_and_hazards.md R160: a reset move brings every state, halted or not, to the reset state of its instance. That the
response list starts again is the model's (notes/assumptions/3). -/
def Obligations.ResetMoveGivesTheResetState : Prop :=
  ∀ (s : State) (rest : List HostMove), s.cmds = .reset :: rest →
    step s = .next { State.resetFor s.cfg with cmds := rest }

/-- The machine's invariant holds at reset, for every instance. Its clauses about the list of responses, empty after a reset, are
about the model's own field (notes/assumptions/3). -/
def Obligations.ResetStateMeetsTheInvariant : Prop :=
  ∀ c : Config, (State.resetFor c).Inv

/-- 42_mutators.md R117, 10_state.md R26, 70_reset_and_hazards.md R169, 30_encoding.md R70: from every state that meets it, every
step keeps the machine's invariant (masked word array of W words, FAULT = 1 iff FCAUSE != 0, FAULT = 1 iff some response said
fault, every response within its ports) and the instance. The list of responses is the model's own field (notes/assumptions/3). -/
def Obligations.EveryStepKeepsTheInvariant : Prop :=
  ∀ s t : State, s.Inv → step s = .next t → t.Inv ∧ t.cfg = s.cfg

/-- 42_mutators.md R117: the masking invariant is kept by all 19 commands, whatever their operands, and by reset, so it holds in
every state a run reaches. -/
def Obligations.EveryCommandKeepsTheMaskingInvariant : Prop :=
  (∀ (i : Instr) (s t : State), s.Masked → exec i s = .next t → t.Masked) ∧
  (∀ s : State, (hardReset s).Masked) ∧
  (∀ (c : Config) (moves : List HostMove) (k : Nat) (t : State),
    core.run k { State.resetFor c with cmds := moves } = .next t → t.Masked)

/-! ## Encoding -/

/-- 30_encoding.md R62 to R65: decoding the canonical command of an instruction whose operands fit their fields gives it back, for
every instruction, every operand value and every N. -/
def Obligations.DecodeOfEncodeIsTheInstruction : Prop :=
  ∀ (c : Config) (i : Instr), i.wf c = true → decode c (encode c i) = .ok i

/-- 30_encoding.md R62, R64: whatever bits are presented, the decoded operands fit their fields. -/
def Obligations.DecodedInstructionIsWellFormed : Prop :=
  ∀ (c : Config) (m : Command) (i : Instr), decode c m = .ok i → i.wf c = true ∧ i.opcode = m.op c

/-- 30_encoding.md R65, R67: exactly the 13 reserved opcodes are rejected, by name. -/
def Obligations.ExactlyTheReservedOpcodesAreRejected : Prop :=
  ∀ (c : Config) (m : Command),
    ((∃ e, decode c m = .error e) ↔
      m.op c ∈ [0x00, 0x0B, 0x0C, 0x0D, 0x0E, 0x0F, 0x19, 0x1A, 0x1B, 0x1C, 0x1D, 0x1E, 0x1F]) ∧
    ∀ e, decode c m = .error e → e = .reservedOpcode (m.op c)

/-- 30_encoding.md R62: the packed word `{op, val, pos}` has PW+6 bits, and its fields read back. -/
def Obligations.PackedFieldsReadBack : Prop :=
  ∀ (c : Config) (op : Nat) (val : Bool) (pos wdata : Nat), op < 32 → pos < 2 ^ c.pw →
    packWord c op val pos < 2 ^ (c.pw + 6) ∧
    Command.op c ⟨packWord c op val pos, wdata⟩ = op ∧
    Command.val c ⟨packWord c op val pos, wdata⟩ = val ∧
    Command.pos c ⟨packWord c op val pos, wdata⟩ = pos

/-- 30_encoding.md R63: reading-order element i of the bus is `wdata[64*(W-i)-1 : 64*(W-1-i)]`, and the bus is the concatenation of
its elements: putting the elements of a DW-bit bus together gives it back. -/
def Obligations.BusIsItsElementsInReadingOrder : Prop :=
  ∀ (c : Config) (wdata : Nat), wdata < 2 ^ c.dw →
    (∀ i, i < c.w → ∀ b, b < 64 →
      ((ldaElems c wdata).getD i 0).getLsbD b = wdata.testBit (64 * (c.w - 1 - i) + b)) ∧
    busOfElems (ldaElems c wdata) = wdata

/-- 30_encoding.md R63, R69, 43_word_access.md R131: a command is decoded alike whatever stands in the fields its rule does not
name, and of the data bus WRW reads the low WW bits only, LDI the low 64 and LDA the DW bits of the port: two buses that agree
there decode alike. -/
def Obligations.UnnamedFieldsDoNotChangeTheCommand : Prop :=
  ∀ (c : Config) (op : Nat) (v v' : Bool) (p p' d d' : Nat), op < 32 → p < 2 ^ c.pw → p' < 2 ^ c.pw →
    (op ≠ 0x11 → decode c ⟨packWord c op v p, d⟩ = decode c ⟨packWord c op v' p, d⟩) ∧
    (op ∉ [0x01, 0x11, 0x13, 0x15, 0x0A, 0x18] →
      decode c ⟨packWord c op v p, d⟩ = decode c ⟨packWord c op v p', d⟩) ∧
    (op ∉ [0x16, 0x17, 0x18] →
      decode c ⟨packWord c op v p, d⟩ = decode c ⟨packWord c op v p, d'⟩) ∧
    (op = 0x18 → d % 2 ^ c.ww = d' % 2 ^ c.ww →
      decode c ⟨packWord c op v p, d⟩ = decode c ⟨packWord c op v p, d'⟩) ∧
    (op = 0x16 → d % 2 ^ 64 = d' % 2 ^ 64 →
      decode c ⟨packWord c op v p, d⟩ = decode c ⟨packWord c op v p, d'⟩) ∧
    (op = 0x17 → d % 2 ^ c.dw = d' % 2 ^ c.dw →
      decode c ⟨packWord c op v p, d⟩ = decode c ⟨packWord c op v p, d'⟩)

/-- 95_test_vectors.md T-ENC and P2: command words of N = 9 and N = 65 decode to the commands they are listed for. -/
def Obligations.ListedCommandWordsDecode : Prop :=
  (∀ c : Config, c.n = 9 →
    decode c ⟨0x023, 0⟩ = .ok (.test 3) ∧ decode c ⟨0x0A0, 0⟩ = .ok .count ∧
    decode c ⟨0x140, 0⟩ = .ok (.rdw 0) ∧ decode c ⟨0x238, 0⟩ = .ok (.setb 8 true) ∧
    decode c ⟨0x228, 0⟩ = .ok (.setb 8 false) ∧ decode c ⟨0x2A3, 0⟩ = .ok (.flpb 3) ∧
    decode c ⟨0x2C0, 0x1A5⟩ = .ok (.ldi 0x1A5) ∧
    decode c ⟨0x300, 0xABCD1234⟩ = .ok (.wrw 0 0x1234)) ∧
  (∀ c : Config, c.n = 65 →
    decode c ⟨0x1700, 0x10000F000000000FFFFFFFFFFFFFFFFF⟩
      = .ok (.lda [0x10000F000000000F, 0xFFFFFFFFFFFFFFFF]) ∧
    decode c ⟨0x0140, 0⟩ = .ok (.test 64) ∧ decode c ⟨0x11C0, 0⟩ = .ok (.setb 64 true) ∧
    decode c ⟨0x1340, 0⟩ = .ok (.rstb 64) ∧ decode c ⟨0x0A01, 0⟩ = .ok (.rdw 1))

/-! ## The step -/

/-- 30_encoding.md R61, 20_memory.md R54: when the next move presents a command that decodes to i, the step is exec of i on the
state from which the move has been taken (the list of moves is the model's, notes/assumptions/2); and `withFetchWord` presents
such a command (notes/assumptions/11). -/
def Obligations.StepRunsTheDecodedInstruction : Prop :=
  (∀ (s : State) (m : Command) (rest : List HostMove) (i : Instr),
    s.cmds = .command m :: rest → decode s.cfg m = .ok i → step s = exec i { s with cmds := rest }) ∧
  (∀ (s : State) (nbits w : Nat) (i : Instr), decode s.cfg (tableCommand s.cfg w) = .ok i →
    step (s.withFetchWord nbits w) = exec i s)

/-- 30_encoding.md R67, 60_exceptions.md R143 to R146: presenting a reserved opcode to a block that is not halted takes
ILLEGAL_OP. -/
def Obligations.ReservedOpcodeTakesIllegalOp : Prop :=
  ∀ (s : State) (m : Command) (rest : List HostMove) (e : DecodeError),
    s.cmds = .command m :: rest → decode s.cfg m = .error e → s.fault = false →
    step s = .next { s with cmds := rest, fault := true, fcause := .illegalOp,
                            rsps := s.rsps ++ [⟨true, false, 0, 0⟩] }

/-- 60_exceptions.md R146: a halted block refuses every presented command, whatever its opcode and operands: nothing changes and the
response is (1, 0, 0, 0). -/
def Obligations.HaltedBlockRefusesEveryCommand : Prop :=
  ∀ (s : State) (m : Command) (rest : List HostMove), s.cmds = .command m :: rest → s.fault = true →
    step s = .next { s with cmds := rest, rsps := s.rsps ++ [⟨true, false, 0, 0⟩] }

/-- 60_exceptions.md R153, 70_reset_and_hazards.md R169: between commands the block holds its state. -/
def Obligations.BlockHoldsItsStateBetweenCommands : Prop :=
  ∀ s : State, s.cmds = [] → step s = .next s

/-- 10_state.md R30, 00_scope.md R9: a command's effect and response depend on the instance and the state of R20 only, not on what
the host did before or will do after. -/
def Obligations.EffectDependsOnlyOnTheBlocksState : Prop :=
  ∀ (i : Instr) (s s' : State), s.cfg = s'.cfg → s.words = s'.words → s.fault = s'.fault →
    s.fcause = s'.fcause →
    ∃ (t t' : State) (r : Response), exec i s = .next t ∧ exec i s' = .next t' ∧
      t.words = t'.words ∧ t.fault = t'.fault ∧ t.fcause = t'.fcause ∧
      t.rsps = s.rsps ++ [r] ∧ t'.rsps = s'.rsps ++ [r] ∧ t.cmds = s.cmds ∧ t'.cmds = s'.cmds

/-! ## Faults -/

/-- 60_exceptions.md R142, R145: in a block that is not halted an index out of range takes INDEX_RANGE: FAULT 1, FCAUSE 1, response
(1, 0, 0, 0), nothing else changed. -/
def Obligations.OutOfRangeIndexTakesIndexRange : Prop :=
  ∀ (s u : State) (k : Nat) (val : Bool) (d : Word), s.fault = false →
    u = { s with fault := true, fcause := .indexRange, rsps := s.rsps ++ [⟨true, false, 0, 0⟩] } →
    (s.cfg.n ≤ k → exec (.test k) s = .next u ∧ exec (.setb k val) s = .next u ∧
      exec (.rstb k) s = .next u ∧ exec (.flpb k) s = .next u) ∧
    (s.cfg.w ≤ k → exec (.rdw k) s = .next u ∧ exec (.wrw k d) s = .next u)

/-- 30_encoding.md R68, 60_exceptions.md R143, R145: the load an instance lacks takes ILLEGAL_OP. -/
def Obligations.AbsentLoadTakesIllegalOp : Prop :=
  ∀ (s u : State) (imm : Word) (elems : List Word), s.fault = false →
    u = { s with fault := true, fcause := .illegalOp, rsps := s.rsps ++ [⟨true, false, 0, 0⟩] } →
    (64 < s.cfg.n → exec (.ldi imm) s = .next u) ∧ (s.cfg.n ≤ 64 → exec (.lda elems) s = .next u)

/-- 60_exceptions.md R141 to R144: a block that is not halted faults on a command exactly when the command breaks the host's
contract (an index out of range, a load the instance lacks), with the cause of R141, and a faulting command changes no word; a
command within the contract leaves FAULT and FCAUSE alone. -/
def Obligations.FaultExactlyOutsideTheContract : Prop :=
  ∀ (i : Instr) (s : State), s.fault = false →
    ∃ t, exec i s = .next t ∧
      (t.fault = true ↔ legal s.cfg i = false) ∧
      (legal s.cfg i = true → t.fcause = s.fcause) ∧
      (legal s.cfg i = false → t.words = s.words ∧
        t.fcause = if i.opcode ∈ [0x16, 0x17] then .illegalOp else .indexRange)

/-- 10_state.md R25, R26, 60_exceptions.md R146, R147: once FAULT is 1, no step but a reset clears it, changes FCAUSE or changes a
word. -/
def Obligations.OnlyResetLeavesTheHaltedState : Prop :=
  ∀ (k : Nat) (s t : State), s.fault = true → (∀ m, m ∈ s.cmds → m ≠ .reset) →
    core.run k s = .next t → t.fault = true ∧ t.fcause = s.fcause ∧ t.words = s.words ∧ t.cfg = s.cfg

/-- 10_state.md R27: STATUS is `{FCAUSE, FAULT}`, and its legal values are 000, 011 and 101. -/
def Obligations.StatusHasThreeLegalValues : Prop :=
  ∀ s : State, s.CauseAgrees →
    s.status.getLsbD 0 = s.fault ∧ (∀ b, b < 2 → s.status.getLsbD (b + 1) = s.stsCause.getLsbD b) ∧
    s.status ∈ [0b000#3, 0b011#3, 0b101#3]

/-! ## Loads -/

/-- 40_construction.md R80: the loads do not depend on the old words, leave FAULT and FCAUSE unless they fault, and exactly one of
them exists in an instance. -/
def Obligations.LoadsOverwriteWithoutReading : Prop :=
  (∀ (s s' : State) (i : Instr), ((∃ imm, i = .ldi imm) ∨ ∃ elems, i = .lda elems) →
    s.cfg = s'.cfg → s.fault = false → s'.fault = false → s.words.length = s.cfg.w →
    s'.words.length = s'.cfg.w → legal s.cfg i = true →
    ∃ t t', exec i s = .next t ∧ exec i s' = .next t' ∧ t.words = t'.words ∧
      t.fault = false ∧ t.fcause = s.fcause) ∧
  (∀ (c : Config) (imm : Word) (elems : List Word), legal c (.ldi imm) = !legal c (.lda elems))

/-- 40_construction.md R81, R82: LDI stores the low WW bits of the integer under MSB_MASK in w[0]; LDA stores element W-1-j in
word j, the top word under MSB_MASK, every other word exactly. -/
def Obligations.LoadsStoreTheElementsUnderTheMask : Prop :=
  (∀ (s : State) (imm : Word), s.fault = false → s.words.length = s.cfg.w → s.cfg.n ≤ 64 →
    exec (.ldi imm) s =
      .next { s with words := [imm &&& s.cfg.msbMask], rsps := s.rsps ++ [⟨false, false, 0, 0⟩] }) ∧
  (∀ (s : State) (elems : List Word), s.fault = false → s.words.length = s.cfg.w → 64 < s.cfg.n →
    elems.length = s.cfg.w →
    ∃ t, exec (.lda elems) s = .next t ∧
      t = { s with words := t.words, rsps := s.rsps ++ [⟨false, false, 0, 0⟩] } ∧
      t.words.length = s.cfg.w ∧
      (∀ j, j < s.cfg.w - 1 → memRead t j = elems.getD (s.cfg.w - 1 - j) 0) ∧
      memRead t (s.cfg.w - 1) = elems.getD 0 0 &&& s.cfg.msbMask)

/-- 40_construction.md R83: after LDI, V = I mod 2^N; after LDA, V = cmd_wdata mod 2^N; in both cases bit(p) is bit p of the data
bus for every p below N. The commands are taken as they come off the bus. -/
def Obligations.LoadsTakeTheBusModuloTwoToN : Prop :=
  ∀ (s : State) (wdata : Nat), s.fault = false → s.Masked →
    (s.cfg.n ≤ 64 → ∃ t, exec (.ldi (ldiImm wdata)) s = .next t ∧
      t.value = (ldiImm wdata).toNat % 2 ^ s.cfg.n ∧ ∀ p, p < s.cfg.n → t.bit p = wdata.testBit p) ∧
    (64 < s.cfg.n → wdata < 2 ^ s.cfg.dw → ∃ t, exec (.lda (ldaElems s.cfg wdata)) s = .next t ∧
      t.value = wdata % 2 ^ s.cfg.n ∧ ∀ p, p < s.cfg.n → t.bit p = wdata.testBit p)

/-- 40_construction.md R84: after LDA the top bit is bit (N-1) mod 64 of the first element, which is its most significant bit for
every list of elements exactly when N is a multiple of 64. -/
def Obligations.TopBitAfterLda : Prop :=
  ∀ s : State, s.fault = false → s.Masked → 64 < s.cfg.n →
    (∀ elems : List Word, elems.length = s.cfg.w → ∃ t, exec (.lda elems) s = .next t ∧
      t.bit (s.cfg.n - 1) = (elems.getD 0 0).getLsbD ((s.cfg.n - 1) % 64)) ∧
    ((∀ elems : List Word, elems.length = s.cfg.w → ∃ t, exec (.lda elems) s = .next t ∧
      t.bit (s.cfg.n - 1) = (elems.getD 0 0).getLsbD 63) ↔ s.cfg.n % 64 = 0)

/-! ## Queries -/

/-- 41_queries.md R91: in a masked block that is not halted, TEST of a position below N answers the bit of V at that position
and changes nothing else. -/
def Obligations.TestAnswersTheBit : Prop :=
  ∀ (s : State) (pos : Nat), s.fault = false → s.Masked → pos < s.cfg.n →
    exec (.test pos) s =
      .next { s with rsps := s.rsps ++ [⟨false, s.value.testBit pos, 0, 0⟩] }

/-- 41_queries.md R92 to R94: ALL answers whether words 0 to W-2 equal ONES and the top word equals MSB_MASK, ANY whether some word
is nonzero, NONE whether every word is zero, in any state that is not halted; nothing else changes. -/
def Obligations.BooleanQueriesCompareTheWords : Prop :=
  ∀ s : State, s.fault = false →
    ∃ all any none : Bool,
      exec .all s = .next { s with rsps := s.rsps ++ [⟨false, all, 0, 0⟩] } ∧
      exec .any s = .next { s with rsps := s.rsps ++ [⟨false, any, 0, 0⟩] } ∧
      exec .none s = .next { s with rsps := s.rsps ++ [⟨false, none, 0, 0⟩] } ∧
      (all = true ↔ (∀ j, j < s.cfg.w - 1 → memRead s j = s.cfg.ones) ∧
        memRead s (s.cfg.w - 1) = s.cfg.msbMask) ∧
      (any = true ↔ ∃ j, j < s.cfg.w ∧ memRead s j ≠ 0) ∧
      (none = true ↔ ∀ j, j < s.cfg.w → memRead s j = 0)

/-- 41_queries.md R95, R97, R98: in a masked block that is not halted, COUNT answers the number of set bits below N, FFO the least
set bit or N, FFZ the least clear bit or N; nothing else changes. -/
def Obligations.CountAndScansAnswerAboutTheBits : Prop :=
  ∀ s : State, s.fault = false → s.Masked →
    ∃ count ffo ffz : Nat,
      exec .count s = .next { s with rsps := s.rsps ++ [⟨false, false, count, 0⟩] } ∧
      exec .ffo s = .next { s with rsps := s.rsps ++ [⟨false, false, ffo, 0⟩] } ∧
      exec .ffz s = .next { s with rsps := s.rsps ++ [⟨false, false, ffz, 0⟩] } ∧
      count = ((Finset.range s.cfg.n).filter fun p => s.bit p = true).card ∧
      (ffo ≤ s.cfg.n ∧ (ffo < s.cfg.n → s.bit ffo = true) ∧ ∀ q, q < ffo → s.bit q = false) ∧
      (ffz ≤ s.cfg.n ∧ (ffz < s.cfg.n → s.bit ffz = false) ∧ ∀ q, q < ffz → s.bit q = true)

/-- 41_queries.md R96, R99: SIZE answers N and GETM answers MSB_MASK, whatever the word array holds; the mask has the bits of the
top word below N; for N = 8, 9, 64, 65 it is the value the source lists. -/
def Obligations.SizeAndGetmAnswerConstants : Prop :=
  (∀ s : State, s.fault = false →
    exec .size s = .next { s with rsps := s.rsps ++ [⟨false, false, s.cfg.n, 0⟩] } ∧
    exec .getm s = .next { s with rsps := s.rsps ++ [⟨false, false, 0, s.cfg.msbMask⟩] }) ∧
  (∀ (c : Config) (i : Nat),
    c.msbMask.getLsbD i = true ↔ i < c.ww ∧ (c.w - 1) * c.ww + i < c.n) ∧
  (∀ c : Config, (c.n = 8 → c.msbMask = 0xFF) ∧ (c.n = 9 → c.msbMask = 0x01FF) ∧
    (c.n = 64 → c.msbMask = 0xFFFFFFFFFFFFFFFF) ∧ (c.n = 65 → c.msbMask = 0x1))

/-- 41_queries.md R100: the laws of the queries in the integer view, on every non-halted state with the masking invariant (which
holds in every observable state, 10_state.md R22). -/
def Obligations.QueryLawsInTheIntegerView : Prop :=
  ∀ s : State, s.fault = false → s.Masked →
    ∃ (any none all : Bool) (count ffo ffz : Nat),
      exec .any s = .next { s with rsps := s.rsps ++ [⟨false, any, 0, 0⟩] } ∧
      exec .none s = .next { s with rsps := s.rsps ++ [⟨false, none, 0, 0⟩] } ∧
      exec .all s = .next { s with rsps := s.rsps ++ [⟨false, all, 0, 0⟩] } ∧
      exec .count s = .next { s with rsps := s.rsps ++ [⟨false, false, count, 0⟩] } ∧
      exec .ffo s = .next { s with rsps := s.rsps ++ [⟨false, false, ffo, 0⟩] } ∧
      exec .ffz s = .next { s with rsps := s.rsps ++ [⟨false, false, ffz, 0⟩] } ∧
      exec .size s = .next { s with rsps := s.rsps ++ [⟨false, false, s.cfg.n, 0⟩] } ∧
      (∀ p, p < s.cfg.n →
        exec (.test p) s = .next { s with rsps := s.rsps ++ [⟨false, s.value.testBit p, 0, 0⟩] }) ∧
      (any = true ↔ s.value ≠ 0) ∧ none = !any ∧
      (all = true ↔ s.value = 2 ^ s.cfg.n - 1) ∧ (all = true ↔ count = s.cfg.n) ∧
      count = ((Finset.range s.cfg.n).filter fun p => s.value.testBit p = true).card ∧ count ≤ s.cfg.n ∧
      (s.value = 0 → ffo = s.cfg.n) ∧
      (s.value ≠ 0 → s.value.testBit ffo = true ∧ ∀ q, q < ffo → s.value.testBit q = false) ∧
      (s.value = 2 ^ s.cfg.n - 1 → ffz = s.cfg.n) ∧
      (s.value ≠ 2 ^ s.cfg.n - 1 → ffz < s.cfg.n ∧ s.value.testBit ffz = false ∧
        ∀ q, q < ffz → s.value.testBit q = true) ∧
      (ffo = s.cfg.n ↔ none = true) ∧ (ffz = s.cfg.n ↔ all = true)

/-- 41_queries.md R90, 30_encoding.md R65: a command whose opcode has op[4] = 0 never writes the word array; where it completes it
changes no state at all but the response list, and where it faults only FAULT and FCAUSE besides. -/
def Obligations.ReadOnlyOpcodesChangeNoWord : Prop :=
  ∀ (i : Instr) (s t : State), i.opcode < 16 → exec i s = .next t →
    t.words = s.words ∧ t.cfg = s.cfg ∧ t.cmds = s.cmds ∧
    (t.fault = s.fault → ∃ r, t = { s with rsps := s.rsps ++ [r] })

/-- 30_encoding.md R71: a command answers exactly one response; a fault or refusal carries no data, and a command that completes
sets no field but the one its row of the table names. -/
def Obligations.ResponsesCarryOnlyTheirField : Prop :=
  ∀ (i : Instr) (s : State), ∃ t r, exec i s = .next t ∧ t.rsps = s.rsps ++ [r] ∧
    (t.fault = true → r = ⟨true, false, 0, 0⟩) ∧
    (t.fault = false → r.fault = false ∧
      (i.opcode ∉ [0x01, 0x02, 0x03, 0x04] → r.bit = false) ∧
      (i.opcode ∉ [0x05, 0x06, 0x07, 0x08] → r.idx = 0) ∧
      (i.opcode ∉ [0x09, 0x0A] → r.word = 0))

/-! ## Mutators -/

/-- 42_mutators.md R111, R113, R115: SETA, RSTA and FLPA write every word (ONES under the mask, 0, the complement under the mask)
and change nothing else. -/
def Obligations.WholeSetMutatorsWriteEveryWord : Prop :=
  ∀ s : State, s.fault = false → s.words.length = s.cfg.w →
    ∃ a b f : State,
      exec .seta s = .next a ∧ exec .rsta s = .next b ∧ exec .flpa s = .next f ∧
      a = { s with words := a.words, rsps := s.rsps ++ [⟨false, false, 0, 0⟩] } ∧
      b = { s with words := b.words, rsps := s.rsps ++ [⟨false, false, 0, 0⟩] } ∧
      f = { s with words := f.words, rsps := s.rsps ++ [⟨false, false, 0, 0⟩] } ∧
      a.words.length = s.cfg.w ∧ b.words.length = s.cfg.w ∧ f.words.length = s.cfg.w ∧
      (∀ j, j < s.cfg.w - 1 → memRead a j = s.cfg.ones) ∧ memRead a (s.cfg.w - 1) = s.cfg.msbMask ∧
      (∀ j, j < s.cfg.w → memRead b j = 0) ∧
      (∀ j, j < s.cfg.w → memRead f j = ~~~memRead s j &&& wMask s.cfg j)

/-- 42_mutators.md R112, R114, R116: in a masked block that is not halted, for pos below N, SETB makes bit pos val, RSTB clears
it, FLPB inverts it; every other bit, every other word and everything else in the state is unchanged. -/
def Obligations.BitMutatorsChangeOneBit : Prop :=
  ∀ (s : State) (pos : Nat) (val : Bool), s.fault = false → s.Masked → pos < s.cfg.n →
    ∃ a b f : State,
      exec (.setb pos val) s = .next a ∧ exec (.rstb pos) s = .next b ∧ exec (.flpb pos) s = .next f ∧
      (∀ t, t ∈ [a, b, f] →
        t = { s with words := t.words, rsps := s.rsps ++ [⟨false, false, 0, 0⟩] } ∧ t.Masked ∧
        (∀ q, q ≠ pos → t.bit q = s.bit q) ∧
        ∀ j, j ≠ pos / s.cfg.ww → memRead t j = memRead s j) ∧
      a.bit pos = val ∧ b.bit pos = false ∧ f.bit pos = !s.bit pos

/-- 42_mutators.md R119: the mutators in the integer view, with V the value before and V' after, for pos below N, on every
non-halted state with the masking invariant. -/
def Obligations.MutatorsInTheIntegerView : Prop :=
  ∀ (s : State) (pos : Nat), s.fault = false → s.Masked → pos < s.cfg.n →
    (∃ t, exec .seta s = .next t ∧ t.value = 2 ^ s.cfg.n - 1) ∧
    (∃ t, exec .rsta s = .next t ∧ t.value = 0) ∧
    (∃ t, exec .flpa s = .next t ∧ t.value = (2 ^ s.cfg.n - 1) - s.value ∧
      t.value = s.value ^^^ (2 ^ s.cfg.n - 1)) ∧
    (∃ t, exec (.setb pos true) s = .next t ∧ t.value = s.value ||| 2 ^ pos) ∧
    (∃ t u, exec (.setb pos false) s = .next t ∧ exec (.rstb pos) s = .next u ∧
      t.value = s.value &&& ((2 ^ s.cfg.n - 1) ^^^ 2 ^ pos) ∧ u.value = t.value) ∧
    (∃ t, exec (.flpb pos) s = .next t ∧ t.value = s.value ^^^ 2 ^ pos)

/-- 42_mutators.md R118: after `RSTA; SETB pos, 1`, TEST pos gives 1, TEST q gives 0 for every other q below N, COUNT = 1,
FFO = pos and V = 2^pos. -/
def Obligations.SingleBitLaw : Prop :=
  ∀ (s : State) (pos : Nat), s.fault = false → s.words.length = s.cfg.w → pos < s.cfg.n →
    ∃ t, execList [.rsta, .setb pos true] s = .next t ∧ t.value = 2 ^ pos ∧
      exec (.test pos) t = .next { t with rsps := t.rsps ++ [⟨false, true, 0, 0⟩] } ∧
      (∀ q, q < s.cfg.n → q ≠ pos →
        exec (.test q) t = .next { t with rsps := t.rsps ++ [⟨false, false, 0, 0⟩] }) ∧
      exec .count t = .next { t with rsps := t.rsps ++ [⟨false, false, 1, 0⟩] } ∧
      exec .ffo t = .next { t with rsps := t.rsps ++ [⟨false, false, pos, 0⟩] }

/-- 42_mutators.md R111, 95_test_vectors.md S6: after SETA, ALL = 1, COUNT = N, FFZ = N, FFO = 0; after SETA and RSTB k, FFZ = k. -/
def Obligations.FullSetLaw : Prop :=
  ∀ s : State, s.fault = false → s.words.length = s.cfg.w →
    (∃ t, exec .seta s = .next t ∧ t.value = 2 ^ s.cfg.n - 1 ∧
      exec .all t = .next { t with rsps := t.rsps ++ [⟨false, true, 0, 0⟩] } ∧
      exec .count t = .next { t with rsps := t.rsps ++ [⟨false, false, s.cfg.n, 0⟩] } ∧
      exec .ffz t = .next { t with rsps := t.rsps ++ [⟨false, false, s.cfg.n, 0⟩] } ∧
      exec .ffo t = .next { t with rsps := t.rsps ++ [⟨false, false, 0, 0⟩] }) ∧
    (∀ k, k < s.cfg.n → ∃ t, execList [.seta, .rstb k] s = .next t ∧
      exec .ffz t = .next { t with rsps := t.rsps ++ [⟨false, false, k, 0⟩] })

/-- 42_mutators.md R115, R116: in a masked block that is not halted, flipping twice restores the word array, whole
or one bit, and FLPA takes COUNT to N - COUNT. -/
def Obligations.FlippingTwiceRestores : Prop :=
  ∀ s : State, s.fault = false → s.Masked →
    (∃ t, execList [.flpa, .flpa] s = .next t ∧ t.words = s.words ∧ t.fault = false) ∧
    (∀ pos, pos < s.cfg.n →
      ∃ t, execList [.flpb pos, .flpb pos] s = .next t ∧ t.words = s.words ∧ t.fault = false) ∧
    (∃ (t : State) (k : Nat), exec .flpa s = .next t ∧
      exec .count s = .next { s with rsps := s.rsps ++ [⟨false, false, k, 0⟩] } ∧ k ≤ s.cfg.n ∧
      exec .count t = .next { t with rsps := t.rsps ++ [⟨false, false, s.cfg.n - k, 0⟩] })

/-- 42_mutators.md R114, 30_encoding.md R73: on every state and every pos, RSTB pos and SETB pos, 0 have the same effect, the same
response and the same fault; and `SETB pos` without val assembles to `SETB pos, 1`. -/
def Obligations.RstbIsSetbFalse : Prop :=
  (∀ (s : State) (pos : Nat), exec (.rstb pos) s = exec (.setb pos false) s) ∧
  (∀ (c : Config) (a : List Char),
    parseTokens c [.name ['S', 'E', 'T', 'B'], .name a]
      = parseTokens c [.name ['S', 'E', 'T', 'B'], .name a, .comma, .name ['1']])

/-! ## Word access and images -/

/-- 43_word_access.md R130, R131: in a masked block that is not halted, for idx below W, RDW answers word idx, whose bits outside
the mask are 0, and changes nothing; WRW stores the data under the mask in word idx, changes no other word, and RDW idx then
answers what was stored. -/
def Obligations.WordReadAndMaskedWordWrite : Prop :=
  ∀ (s : State) (idx : Nat) (d : Word), s.fault = false → s.Masked → idx < s.cfg.w →
    (exec (.rdw idx) s = .next { s with rsps := s.rsps ++ [⟨false, false, 0, memRead s idx⟩] } ∧
      memRead s idx &&& ~~~wMask s.cfg idx = 0) ∧
    ∃ t, exec (.wrw idx d) s = .next t ∧
      t = { s with words := t.words, rsps := s.rsps ++ [⟨false, false, 0, 0⟩] } ∧ t.Masked ∧
      memRead t idx = d &&& wMask s.cfg idx ∧ (∀ j, j ≠ idx → memRead t j = memRead s j) ∧
      exec (.rdw idx) t = .next { t with rsps := t.rsps ++ [⟨false, false, 0, d &&& wMask s.cfg idx⟩] }

/-- 43_word_access.md R132, 20_memory.md R58: let img be what RDW reads from block A. Writing img to any non-halted block B of the
same N, word by word or by one load, leaves B's word array equal to A's; so does any image that differs from img only outside the
masks (altered in transit), and no fault is raised. -/
def Obligations.ImageCopiesABlock : Prop :=
  ∀ (a b : State) (img : List Word), a.Masked → b.Masked → b.cfg.n = a.cfg.n → b.fault = false →
    img.length = a.cfg.w →
    (∀ j, j < a.cfg.w → img.getD j 0 &&& wMask a.cfg j = (imageWords a).getD j 0) →
    (a.fault = false → ∀ j, j < a.cfg.w →
      exec (.rdw j) a = .next { a with rsps := a.rsps ++ [⟨false, false, 0, (imageWords a).getD j 0⟩] }) ∧
    (∃ t, execList (writeBack b.cfg img) b = .next t ∧ t.words = a.words ∧ t.fault = false) ∧
    (∃ t, exec (loadBack b.cfg img) b = .next t ∧ t.words = a.words ∧ t.fault = false)

/-- 20_memory.md R49, R50, R58: the byte image of a masked block has BYTES bytes and reads back as the word array in either byte
order; with `little`, byte i of the image is V[8i+7 : 8i]; and byte j*WW/8+b of the image is w[j][8b+7 : 8b] with `little` and
w[j][WW-8b-1 : WW-8b-8] with `big`. -/
def Obligations.ByteImageRoundTrip : Prop :=
  ∀ s : State, s.Masked →
    (imageBytes s).length = s.cfg.bytes ∧ wordsOfBytes s.cfg (imageBytes s) = s.words ∧
    (s.cfg.byteOrder = .little → ∀ i, i < s.cfg.bytes →
      ((imageBytes s).getD i 0).toNat = s.value / 2 ^ (8 * i) % 256) ∧
    (∀ j b, j < s.cfg.w → b < s.cfg.ww / 8 →
      ((imageBytes s).getD (j * (s.cfg.ww / 8) + b) 0).toNat =
        match s.cfg.byteOrder with
        | .little => (memRead s j).toNat / 2 ^ (8 * b) % 256
        | .big => (memRead s j).toNat / 2 ^ (s.cfg.ww - 8 * b - 8) % 256)

/-! ## The two statements of every command agree -/

/-- 40_construction.md R83, 41_queries.md R100, 42_mutators.md R119, 10_state.md R24: the machine on the word array refines the
machine on the N-bit integer V: for every instruction whose operands fit their fields, exec answers a next state whose integer
view and response are those of the integer machine. The integer forms of GETM, RDW and WRW are the model's (notes/assumptions/8).
-/
def Obligations.WordArrayRefinesTheIntegerView : Prop :=
  ∀ (i : Instr) (s : State), s.Masked → i.wf s.cfg = true →
    ∃ t, exec i s = .next t ∧ t.intBlock = (intExec i s.intBlock).1 ∧
      t.rsps = s.rsps ++ [(intExec i s.intBlock).2] ∧ t.cmds = s.cmds ∧ t.Masked

/-! ## Runs -/

/-- 70_reset_and_hazards.md R167: a list of n host moves reaches its end after n steps; a list of n commands with no reset in it
gets n responses. -/
def Obligations.EveryRunEnds : Prop :=
  ∀ s : State, ∃ t, core.run s.cmds.length s = .next t ∧ t.cmds = [] ∧ t.cfg = s.cfg ∧
    ((∀ m, m ∈ s.cmds → m ≠ .reset) → t.rsps.length = s.rsps.length + s.cmds.length)

/-- 70_reset_and_hazards.md R169: in every state a run reaches, FAULT = 0 if and only if no response of the run had fault = 1. -/
def Obligations.RunSucceedsIffNoResponseFaulted : Prop :=
  ∀ (c : Config) (moves : List HostMove) (k : Nat) (t : State),
    core.run k { State.resetFor c with cmds := moves } = .next t →
    (t.fault = false ↔ ∀ r, r ∈ t.rsps → r.fault = false)

/-! ## The clocked port and the assembler -/

/-- 30_encoding.md R61: a command accepted at an edge is answered at one later edge, `cmd_ready` being 0 from the next edge on and
`rsp_valid` 1 at the response edge only; at it the block's state and the response are those of one step. The latency is the free
value of notes/assumptions/6: the statement holds for every one. That the status outputs at the response edge are those of the state
after the command, and `cmd_ready` 0 there, is read from the rule (notes/assumptions/7). -/
def Obligations.PortTransactionIsOneStep : Prop :=
  ∀ (p : PortState) (i : PortIn) (later : List PortIn), p.inFlight = none → i.rst = false →
    i.cmdValid = true → later.length = p.latency (i.command p.core.cfg) + 1 → (∀ j, j ∈ later → j.rst = false) →
    ∃ (t : State) (r : Response) (q : PortState) (first last : PortOut) (waiting : List PortOut),
      step (p.core.present (i.command p.core.cfg)) = .next t ∧ t.rsps = p.core.rsps ++ [r] ∧
      ticks p (i :: later) = .next (q, first :: waiting ++ [last]) ∧
      q.core = t ∧ q.inFlight = none ∧
      first.cmdReady = true ∧ first.rspValid = false ∧
      (∀ o, o ∈ waiting → o.cmdReady = false ∧ o.rspValid = false) ∧
      last.cmdReady = false ∧ last.rsp = some r ∧
      last.stsFault = t.fault ∧ last.stsCause = causeCode t.fcause

/-- 70_reset_and_hazards.md R160, R163: at an edge with rst = 1 the state becomes the reset state, a command in flight is dropped
with no response, and nothing is accepted. That the list of responses is empty afterwards and the host's later moves stand is the
model's (notes/assumptions/3 and 2). -/
def Obligations.ResetAtThePortDropsTheCommand : Prop :=
  ∀ (p : PortState) (i : PortIn), i.rst = true →
    ∃ q o, tick p i = .next (q, o) ∧ q.core = { State.resetFor p.core.cfg with cmds := p.core.cmds } ∧
      q.inFlight = none ∧ o.cmdReady = false ∧ o.rspValid = false

/-- 60_exceptions.md R143, 30_encoding.md R72: a line the assembler accepts is a command whose opcode the instance implements: no
block that is not halted takes ILLEGAL_OP for it. That its operands fit their fields, a position or word index among them, is the
model's: its assembler rejects a number that does not fit (notes/assumptions/9). -/
def Obligations.AssembledLineNeverTakesIllegalOp : Prop :=
  ∀ (c : Config) (line : List Char) (i : Instr), assembleLine c line = some i →
    i.wf c = true ∧ ∀ s : State, s.cfg = c → s.fault = false → s.fcause = .none →
      ∃ t, exec i s = .next t ∧ t.fcause ≠ .illegalOp
end

