-- ==== Sys2Proof/Laws/Params.lean ====
section
/-! SUPPORT. What the constants of an instance are, case by case in N (00_scope.md R3 to R6). -/

namespace Sys2Proof

theorem Config.ww_cases (c : Config) : c.ww = 8 ∨ c.ww = 16 ∨ c.ww = 32 ∨ c.ww = 64 := by
  unfold Config.ww; split
  · simp
  · split
    · simp
    · split <;> simp

theorem Config.ww_pos (c : Config) : 0 < c.ww := by
  rcases c.ww_cases with h | h | h | h <;> omega

theorem Config.ww_le (c : Config) : c.ww ≤ 64 := by
  rcases c.ww_cases with h | h | h | h <;> omega

theorem Config.w_pos (c : Config) : 0 < c.w := by
  have := c.n_pos
  unfold Config.w; omega

theorem Config.w_eq_one {c : Config} (h : c.n ≤ 64) : c.w = 1 := by
  have := c.n_pos
  unfold Config.w; omega

theorem Config.ww_eq_of_gt {c : Config} (h : 64 < c.n) : c.ww = 64 := by
  unfold Config.ww; rw [if_pos (by omega)]

theorem Config.two_le_w {c : Config} (h : 64 < c.n) : 2 ≤ c.w := by
  unfold Config.w; omega

/-- A word of the narrowest width that holds N bits: N <= WW where there is one word. -/
theorem Config.n_le_ww {c : Config} (h : c.n ≤ 64) : c.n ≤ c.ww := by
  unfold Config.ww
  split
  · omega
  · split
    · omega
    · split <;> omega

/-- N lies in the top word: (W-1)*WW < N <= W*WW. -/
theorem Config.n_bounds (c : Config) : (c.w - 1) * c.ww < c.n ∧ c.n ≤ c.w * c.ww := by
  have hp := c.n_pos
  by_cases h : c.n ≤ 64
  · have := Config.n_le_ww h
    simp [Config.w_eq_one h]; omega
  · rw [Config.ww_eq_of_gt (by omega)]
    unfold Config.w; omega

theorem Config.n_le_total (c : Config) : c.n ≤ c.total := c.n_bounds.2

/-- TOTAL = N exactly when R = 0 (00_scope.md R5). -/
theorem Config.total_eq_iff (c : Config) : c.total = c.n ↔ c.r = 0 := by
  have hp := c.n_pos
  unfold Config.total Config.r
  by_cases h : c.n ≤ 64
  · rw [Config.w_eq_one h]
    unfold Config.ww
    split
    · omega
    · split
      · omega
      · split <;> omega
  · rw [Config.ww_eq_of_gt (by omega)]
    unfold Config.w; omega

/-- Where R != 0 the top word uses R bits: N = (W-1)*WW + R. -/
theorem Config.n_eq_of_r {c : Config} (h : c.r ≠ 0) : c.n = (c.w - 1) * c.ww + c.r := by
  have hp := c.n_pos
  unfold Config.r at *
  by_cases h64 : c.n ≤ 64
  · rw [Config.w_eq_one h64]
    revert h
    unfold Config.ww
    split
    · omega
    · split
      · omega
      · split <;> omega
  · have hw := Config.ww_eq_of_gt (c := c) (by omega)
    rw [hw] at h ⊢
    unfold Config.w; omega

theorem Config.r_lt (c : Config) : c.r < c.ww := Nat.mod_lt _ c.ww_pos

/-- The low `k` bits set. -/
theorem getLsbD_lowOnes {k : Nat} (i : Nat) :
    (BitVec.ofNat 64 (2 ^ k - 1)).getLsbD i = (decide (i < 64) && decide (i < k)) := by
  simp [BitVec.getLsbD_ofNat, Nat.testBit_two_pow_sub_one]

theorem Config.getLsbD_ones (c : Config) (i : Nat) : c.ones.getLsbD i = decide (i < c.ww) := by
  have := c.ww_le
  unfold Config.ones
  rw [getLsbD_lowOnes]
  by_cases h : i < c.ww
  · simp [h]; omega
  · simp [h]

/-- The mask of the top word keeps the bits below N. -/
theorem Config.getLsbD_msbMask (c : Config) (i : Nat) :
    c.msbMask.getLsbD i = (decide (i < c.ww) && decide ((c.w - 1) * c.ww + i < c.n)) := by
  unfold Config.msbMask
  have hb := c.n_bounds
  have hle := c.ww_le
  have hmul : c.w * c.ww = (c.w - 1) * c.ww + c.ww := by
    have := c.w_pos
    rw [← Nat.succ_mul]; congr 1; omega
  split
  · next h =>
    rw [Config.getLsbD_ones]
    unfold Config.total at h
    by_cases hi : i < c.ww
    · simp [hi]; omega
    · simp [hi]
  · next h =>
    have hr : c.r ≠ 0 := fun e => h (c.total_eq_iff.mpr e)
    have hn := Config.n_eq_of_r hr
    have hlt := c.r_lt
    rw [getLsbD_lowOnes]
    rw [Bool.eq_iff_iff]
    simp only [Bool.and_eq_true, decide_eq_true_eq]
    constructor <;> rintro ⟨h1, h2⟩ <;> constructor <;> omega

theorem Config.n_lt_two_pow_pw (c : Config) : c.n < 2 ^ c.pw := by
  unfold Config.pw
  exact Nat.lt_log2_self

end Sys2Proof
end

