-- ==== Sys2Proof/Laws/State.lean ====
section
/-! SUPPORT. One lemma per field per update of State, each by rfl, so that no later proof unfolds a record update. -/

namespace Sys2Proof.Machine

@[simp] theorem respond_cfg (s : State) (r : Response) :
    (respond s r).cfg = s.cfg := rfl
@[simp] theorem respond_words (s : State) (r : Response) :
    (respond s r).words = s.words := rfl
@[simp] theorem respond_fault (s : State) (r : Response) :
    (respond s r).fault = s.fault := rfl
@[simp] theorem respond_fcause (s : State) (r : Response) :
    (respond s r).fcause = s.fcause := rfl
@[simp] theorem respond_cmds (s : State) (r : Response) :
    (respond s r).cmds = s.cmds := rfl
@[simp] theorem respond_rsps (s : State) (r : Response) :
    (respond s r).rsps = s.rsps ++ [r] := rfl

@[simp] theorem rawWrite_cfg (s : State) (j : Nat) (v : Word) :
    (rawWrite s j v).cfg = s.cfg := rfl
@[simp] theorem rawWrite_words (s : State) (j : Nat) (v : Word) :
    (rawWrite s j v).words = s.words.set j v := rfl
@[simp] theorem rawWrite_fault (s : State) (j : Nat) (v : Word) :
    (rawWrite s j v).fault = s.fault := rfl
@[simp] theorem rawWrite_fcause (s : State) (j : Nat) (v : Word) :
    (rawWrite s j v).fcause = s.fcause := rfl
@[simp] theorem rawWrite_cmds (s : State) (j : Nat) (v : Word) :
    (rawWrite s j v).cmds = s.cmds := rfl
@[simp] theorem rawWrite_rsps (s : State) (j : Nat) (v : Word) :
    (rawWrite s j v).rsps = s.rsps := rfl

@[simp] theorem memWrite_cfg (s : State) (j : Nat) (v : Word) :
    (memWrite s j v).cfg = s.cfg := rfl
@[simp] theorem memWrite_words (s : State) (j : Nat) (v : Word) :
    (memWrite s j v).words = s.words.set j (v &&& wMask s.cfg j) := rfl
@[simp] theorem memWrite_fault (s : State) (j : Nat) (v : Word) :
    (memWrite s j v).fault = s.fault := rfl
@[simp] theorem memWrite_fcause (s : State) (j : Nat) (v : Word) :
    (memWrite s j v).fcause = s.fcause := rfl
@[simp] theorem memWrite_cmds (s : State) (j : Nat) (v : Word) :
    (memWrite s j v).cmds = s.cmds := rfl
@[simp] theorem memWrite_rsps (s : State) (j : Nat) (v : Word) :
    (memWrite s j v).rsps = s.rsps := rfl

@[simp] theorem rawWriteAll_cfg (s : State) (f : Nat → Word) :
    (rawWriteAll s f).cfg = s.cfg := rfl
@[simp] theorem rawWriteAll_words (s : State) (f : Nat → Word) :
    (rawWriteAll s f).words = (List.range s.cfg.w).map f := rfl
@[simp] theorem rawWriteAll_fault (s : State) (f : Nat → Word) :
    (rawWriteAll s f).fault = s.fault := rfl
@[simp] theorem rawWriteAll_fcause (s : State) (f : Nat → Word) :
    (rawWriteAll s f).fcause = s.fcause := rfl
@[simp] theorem rawWriteAll_cmds (s : State) (f : Nat → Word) :
    (rawWriteAll s f).cmds = s.cmds := rfl
@[simp] theorem rawWriteAll_rsps (s : State) (f : Nat → Word) :
    (rawWriteAll s f).rsps = s.rsps := rfl

@[simp] theorem memWriteAll_cfg (s : State) (f : Nat → Word) :
    (memWriteAll s f).cfg = s.cfg := rfl
@[simp] theorem memWriteAll_words (s : State) (f : Nat → Word) :
    (memWriteAll s f).words = (List.range s.cfg.w).map fun j => f j &&& wMask s.cfg j := rfl
@[simp] theorem memWriteAll_fault (s : State) (f : Nat → Word) :
    (memWriteAll s f).fault = s.fault := rfl
@[simp] theorem memWriteAll_fcause (s : State) (f : Nat → Word) :
    (memWriteAll s f).fcause = s.fcause := rfl
@[simp] theorem memWriteAll_cmds (s : State) (f : Nat → Word) :
    (memWriteAll s f).cmds = s.cmds := rfl
@[simp] theorem memWriteAll_rsps (s : State) (f : Nat → Word) :
    (memWriteAll s f).rsps = s.rsps := rfl

@[simp] theorem takeFault_cfg (s : State) (cause : FCause) :
    (takeFault s cause).cfg = s.cfg := rfl
@[simp] theorem takeFault_words (s : State) (cause : FCause) :
    (takeFault s cause).words = s.words := rfl
@[simp] theorem takeFault_fault (s : State) (cause : FCause) :
    (takeFault s cause).fault = true := rfl
@[simp] theorem takeFault_fcause (s : State) (cause : FCause) :
    (takeFault s cause).fcause = cause := rfl
@[simp] theorem takeFault_cmds (s : State) (cause : FCause) :
    (takeFault s cause).cmds = s.cmds := rfl
@[simp] theorem takeFault_rsps (s : State) (cause : FCause) :
    (takeFault s cause).rsps = s.rsps ++ [Response.faulted] := rfl

@[simp] theorem refuse_cfg (s : State) :
    (refuse s).cfg = s.cfg := rfl
@[simp] theorem refuse_words (s : State) :
    (refuse s).words = s.words := rfl
@[simp] theorem refuse_fault (s : State) :
    (refuse s).fault = s.fault := rfl
@[simp] theorem refuse_fcause (s : State) :
    (refuse s).fcause = s.fcause := rfl
@[simp] theorem refuse_cmds (s : State) :
    (refuse s).cmds = s.cmds := rfl
@[simp] theorem refuse_rsps (s : State) :
    (refuse s).rsps = s.rsps ++ [Response.faulted] := rfl

@[simp] theorem hardReset_cfg (s : State) :
    (hardReset s).cfg = s.cfg := rfl
@[simp] theorem hardReset_words (s : State) :
    (hardReset s).words = List.replicate s.cfg.w 0 := rfl
@[simp] theorem hardReset_fault (s : State) :
    (hardReset s).fault = false := rfl
@[simp] theorem hardReset_fcause (s : State) :
    (hardReset s).fcause = .none := rfl
@[simp] theorem hardReset_cmds (s : State) :
    (hardReset s).cmds = s.cmds := rfl
@[simp] theorem hardReset_rsps (s : State) :
    (hardReset s).rsps = [] := rfl

@[simp] theorem present_cfg (s : State) (m : Command) : (s.present m).cfg = s.cfg := rfl
@[simp] theorem present_words (s : State) (m : Command) : (s.present m).words = s.words := rfl
@[simp] theorem present_fault (s : State) (m : Command) : (s.present m).fault = s.fault := rfl
@[simp] theorem present_fcause (s : State) (m : Command) : (s.present m).fcause = s.fcause := rfl
@[simp] theorem present_cmds (s : State) (m : Command) :
    (s.present m).cmds = .command m :: s.cmds := rfl
@[simp] theorem present_rsps (s : State) (m : Command) : (s.present m).rsps = s.rsps := rfl

@[simp] theorem resetFor_cfg (c : Config) : (State.resetFor c).cfg = c := rfl
@[simp] theorem resetFor_words (c : Config) :
    (State.resetFor c).words = List.replicate c.w 0 := rfl
@[simp] theorem resetFor_fault (c : Config) : (State.resetFor c).fault = false := rfl
@[simp] theorem resetFor_fcause (c : Config) : (State.resetFor c).fcause = .none := rfl
@[simp] theorem resetFor_cmds (c : Config) : (State.resetFor c).cmds = [] := rfl
@[simp] theorem resetFor_rsps (c : Config) : (State.resetFor c).rsps = [] := rfl

/-- Reading a word sees the word array only. -/
theorem memRead_congr {s t : State} (h : s.words = t.words) (j : Nat) :
    memRead s j = memRead t j := by simp [memRead, h]

@[simp] theorem memRead_respond (s : State) (r : Response) (j : Nat) :
    memRead (respond s r) j = memRead s j := rfl
@[simp] theorem memRead_takeFault (s : State) (cause : FCause) (j : Nat) :
    memRead (takeFault s cause) j = memRead s j := rfl
@[simp] theorem memRead_refuse (s : State) (j : Nat) : memRead (refuse s) j = memRead s j := rfl
@[simp] theorem memRead_present (s : State) (m : Command) (j : Nat) :
    memRead (s.present m) j = memRead s j := rfl

end Sys2Proof.Machine
end

