-- ==== Sys2Proof/Laws/Ops.lean ====
section
/-! SUPPORT. What each shared operation over the word array does, said once: masks, word reads after writes, the extractor, the
range checks, and that every operation keeps the masking invariant. -/

namespace Sys2Proof.Machine

/-! ## Masks -/

/-- The bits WMASK(j) keeps are the storage bits below N (20_memory.md R44). -/
theorem getLsbD_wMask (c : Config) {j : Nat} (hj : j < c.w) (i : Nat) :
    (wMask c j).getLsbD i = (decide (i < c.ww) && decide (j * c.ww + i < c.n)) := by
  unfold wMask
  split
  · next h => rw [Config.getLsbD_msbMask, h]
  · next h =>
    rw [Config.getLsbD_ones]
    by_cases hi : i < c.ww
    · have hb := c.n_bounds
      have : (j + 1) * c.ww ≤ (c.w - 1) * c.ww := Nat.mul_le_mul_right _ (by omega)
      rw [Nat.succ_mul] at this
      simp [hi]; omega
    · simp [hi]

/-- A masked value has no bit outside the mask. -/
theorem and_not_eq_zero_iff (v m : Word) :
    v &&& ~~~m = 0 ↔ ∀ i, v.getLsbD i = true → m.getLsbD i = true := by
  constructor
  · intro h i hv
    have hi : i < 64 := BitVec.lt_of_getLsbD hv
    have := congrArg (fun x : Word => x.getLsbD i) h
    simpa [hv, hi] using this
  · intro h
    ext i hi
    have := h i
    cases hv : v.getLsbD i <;> simp_all [← BitVec.getLsbD_eq_getElem]

theorem masked_and (v m : Word) : (v &&& m) &&& ~~~m = 0 := by
  rw [and_not_eq_zero_iff]; intro i h; simp at h; exact h.2

/-- Masking a value that is already masked changes nothing (20_memory.md R47). -/
theorem and_eq_self_of_masked {v m : Word} (h : v &&& ~~~m = 0) : v &&& m = v := by
  rw [and_not_eq_zero_iff] at h
  ext i hi
  have := h i
  cases hv : v.getLsbD i <;> simp_all [← BitVec.getLsbD_eq_getElem]

/-! ## Word reads -/

theorem memRead_rawWrite_same (s : State) {j : Nat} (v : Word) (h : j < s.words.length) :
    memRead (rawWrite s j v) j = v := by
  simp [memRead, h]

theorem memRead_rawWrite_other (s : State) {j k : Nat} (v : Word) (h : k ≠ j) :
    memRead (rawWrite s j v) k = memRead s k := by
  simp [memRead, List.getD_eq_getElem?_getD, List.getElem?_set_ne (Ne.symm h)]

theorem memRead_rawWriteAll (s : State) (f : Nat → Word) {j : Nat} (h : j < s.cfg.w) :
    memRead (rawWriteAll s f) j = f j := by
  simp [memRead, h]

theorem memRead_memWrite_same (s : State) {j : Nat} (v : Word) (h : j < s.words.length) :
    memRead (memWrite s j v) j = v &&& wMask s.cfg j :=
  memRead_rawWrite_same s _ h

theorem memRead_memWrite_other (s : State) {j k : Nat} (v : Word) (h : k ≠ j) :
    memRead (memWrite s j v) k = memRead s k :=
  memRead_rawWrite_other s _ h

theorem memRead_memWriteAll (s : State) (f : Nat → Word) {j : Nat} (h : j < s.cfg.w) :
    memRead (memWriteAll s f) j = f j &&& wMask s.cfg j :=
  memRead_rawWriteAll s _ h

theorem memRead_resetFor (c : Config) (j : Nat) : memRead (State.resetFor c) j = 0 := by
  by_cases h : j < c.w <;>
    simp [memRead, List.getD_eq_getElem?_getD, h]

/-- The word array is its reads. -/
theorem words_ext {s t : State} (hl : s.words.length = t.words.length)
    (h : ∀ j, j < s.words.length → memRead s j = memRead t j) : s.words = t.words := by
  refine List.ext_getElem hl fun j h1 h2 => ?_
  have := h j h1
  simpa [memRead, h1, h2] using this

/-! ## The extractor -/

theorem extract_eq_getLsbD (s : State) (j k : Nat) :
    extract s j k = (memRead s j).getLsbD k := by
  unfold extract
  rw [Bool.eq_iff_iff, beq_iff_eq]
  constructor
  · intro h
    have := congrArg (fun x : Word => x.getLsbD 0) h
    simpa using this
  · intro h
    ext i hi
    rcases Nat.eq_zero_or_pos i with rfl | hp
    · simp [← BitVec.getLsbD_eq_getElem, h]
    · simp [← BitVec.getLsbD_eq_getElem]; omega

theorem bit_eq_getLsbD (s : State) (p : Nat) :
    s.bit p = (memRead s (p / s.cfg.ww)).getLsbD (p % s.cfg.ww) :=
  extract_eq_getLsbD s _ _

/-- The indexer of a position below N stays in the word array (20_memory.md R41). -/
theorem idxOf_lt {c : Config} {p : Nat} (h : p < c.n) : (idxOf c p).1 < c.w := by
  have := c.n_le_total
  exact Nat.div_lt_of_lt_mul (by unfold Config.total at this; rw [Nat.mul_comm]; omega)

theorem idxOf_snd_lt (c : Config) (p : Nat) : (idxOf c p).2 < c.ww := Nat.mod_lt _ c.ww_pos

theorem idxOf_eq (c : Config) (p : Nat) : (idxOf c p).1 * c.ww + (idxOf c p).2 = p :=
  Nat.div_add_mod' p c.ww

theorem getLsbD_bitMask (k i : Nat) :
    (bitMask k).getLsbD i = (decide (i < 64) && decide (i = k)) := by
  unfold bitMask
  rw [BitVec.getLsbD_shiftLeft]
  by_cases h : i < 64 <;> by_cases h2 : i < k <;> simp [h, h2, BitVec.getLsbD_one] <;> omega

theorem getLsbD_notWord (c : Config) (v : Word) (i : Nat) :
    (notWord c v).getLsbD i = (decide (i < c.ww) && !v.getLsbD i) := by
  have := c.ww_le
  unfold notWord
  rw [BitVec.getLsbD_and, Config.getLsbD_ones, BitVec.getLsbD_not]
  by_cases h : i < c.ww
  · have : i < 64 := by omega
    simp [h, this]
  · simp [h]

/-! ## The masking invariant -/

/-- The invariant, bit by bit: word j has no bit at or above WW and none at or above N. -/
theorem masked_iff (s : State) :
    s.Masked ↔ s.words.length = s.cfg.w ∧ ∀ j, j < s.cfg.w → ∀ i, (memRead s j).getLsbD i = true →
      i < s.cfg.ww ∧ j * s.cfg.ww + i < s.cfg.n := by
  unfold State.Masked
  refine and_congr_right fun _ => forall_congr' fun j => forall_congr' fun hj => ?_
  rw [and_not_eq_zero_iff]
  refine forall_congr' fun i => ?_
  rw [getLsbD_wMask _ hj]
  simp

/-- The invariant is a property of the instance and the word array. -/
theorem masked_congr {s t : State} (hc : t.cfg = s.cfg) (hw : t.words = s.words) :
    t.Masked ↔ s.Masked := by
  simp [State.Masked, memRead, hc, hw]

theorem memWrite_masked {s : State} (h : s.Masked) (j : Nat) (v : Word) :
    (memWrite s j v).Masked := by
  refine ⟨by simpa using h.1, fun k hk => ?_⟩
  rw [memWrite_cfg] at hk ⊢
  by_cases e : k = j
  · subst e
    rw [memRead_memWrite_same s v (by rw [h.1]; exact hk)]
    exact masked_and _ _
  · rw [memRead_memWrite_other s v e]
    exact h.2 k hk

theorem memWriteAll_masked (s : State) (f : Nat → Word) : (memWriteAll s f).Masked := by
  refine ⟨by simp, fun k hk => ?_⟩
  rw [memRead_memWriteAll s f hk]
  exact masked_and _ _

theorem rawWriteAll_zero_masked (s : State) : (rawWriteAll s fun _ => 0).Masked := by
  refine ⟨by simp, fun k hk => ?_⟩
  rw [memRead_rawWriteAll s _ hk]
  simp

theorem rawWrite_masked {s : State} (h : s.Masked) (j : Nat) {v : Word}
    (hv : j < s.cfg.w → v &&& ~~~wMask s.cfg j = 0) : (rawWrite s j v).Masked := by
  refine ⟨by simpa using h.1, fun k hk => ?_⟩
  rw [rawWrite_cfg] at hk ⊢
  by_cases e : k = j
  · subst e
    rw [memRead_rawWrite_same s v (by rw [h.1]; exact hk)]
    exact hv hk
  · rw [memRead_rawWrite_other s v e]
    exact h.2 k hk

theorem resetFor_masked (c : Config) : (State.resetFor c).Masked :=
  ⟨by simp, fun j _ => by rw [memRead_resetFor]; simp⟩

/-! ## Range checks -/

theorem unlessHalted_of_live {s : State} (h : s.fault = false) (body : State) :
    unlessHalted s body = body := by simp [unlessHalted, h]

theorem unlessHalted_of_halted {s : State} (h : s.fault = true) (body : State) :
    unlessHalted s body = refuse s := by simp [unlessHalted, h]

theorem atBit_of_lt {s : State} {pos : Nat} (h : pos < s.cfg.n) (body : Nat → Nat → State) :
    atBit s pos body = body (idxOf s.cfg pos).1 (idxOf s.cfg pos).2 := by
  simp [atBit, Nat.not_le.mpr h]

theorem atBit_of_ge {s : State} {pos : Nat} (h : s.cfg.n ≤ pos) (body : Nat → Nat → State) :
    atBit s pos body = takeFault s .indexRange := by simp [atBit, h]

theorem atWord_of_lt {s : State} {idx : Nat} (h : idx < s.cfg.w) (body : State) :
    atWord s idx body = body := by simp [atWord, Nat.not_le.mpr h]

theorem atWord_of_ge {s : State} {idx : Nat} (h : s.cfg.w ≤ idx) (body : State) :
    atWord s idx body = takeFault s .indexRange := by simp [atWord, h]

end Sys2Proof.Machine
end

