-- ==== Sys2Proof/Laws/IntegerView.lean ====
section
/-! SUPPORT. The bits of the integer view are the bits of the words (10_state.md R24). -/

namespace Sys2Proof.Machine

theorem testBit_valueOf {ww : Nat} (hw : 0 < ww) {ws : List Word}
    (hf : ∀ v ∈ ws, v.toNat < 2 ^ ww) (p : Nat) :
    (valueOf ww ws).testBit p = (ws.getD (p / ww) 0).getLsbD (p % ww) := by
  induction ws generalizing p with
  | nil => simp [valueOf]
  | cons v vs ih =>
    have hv : v.toNat < 2 ^ ww := hf v (by simp)
    rw [valueOf, Nat.add_comm, Nat.testBit_two_pow_mul_add _ hv]
    by_cases h : p < ww
    · simp [h, Nat.div_eq_of_lt h, Nat.mod_eq_of_lt h, BitVec.getLsbD]
    · have hp : ww ≤ p := Nat.le_of_not_lt h
      rw [if_neg h, ih (fun v hv => hf v (by simp [hv])), Nat.mod_eq_sub_mod hp,
        Nat.div_eq_sub_div hw hp, List.getD_cons_succ]

/-- In a masked state every word is below 2^WW. -/
theorem toNat_lt_of_masked {s : State} (h : s.Masked) {v : Word} (hv : v ∈ s.words) :
    v.toNat < 2 ^ s.cfg.ww := by
  obtain ⟨j, hj, rfl⟩ := List.getElem_of_mem hv
  refine Nat.lt_pow_two_of_testBit _ fun i hi => ?_
  by_contra hc
  have hb : (memRead s j).getLsbD i = true := by
    simpa [memRead, hj, BitVec.getLsbD] using hc
  have := (((masked_iff s).mp h).2 j (by rw [← h.1]; exact hj) i hb).1
  omega

/-- Bit p of V is bit p mod WW of word p div WW. -/
theorem testBit_value {s : State} (h : s.Masked) (p : Nat) :
    s.value.testBit p = s.bit p := by
  rw [bit_eq_getLsbD]
  exact testBit_valueOf s.cfg.ww_pos (fun v hv => toNat_lt_of_masked h hv) p

/-- V is a function of the instance and the word array. -/
theorem value_congr {s t : State} (hc : t.cfg = s.cfg) (hw : t.words = s.words) :
    t.value = s.value := by simp [State.value, hc, hw]

/-- No bit at or above N. -/
theorem bit_of_ge {s : State} (h : s.Masked) {p : Nat} (hp : s.cfg.n ≤ p) : s.bit p = false := by
  rw [bit_eq_getLsbD]
  by_contra hc
  have hb : (memRead s (p / s.cfg.ww)).getLsbD (p % s.cfg.ww) = true := by simpa using hc
  by_cases hj : p / s.cfg.ww < s.cfg.w
  · have := (((masked_iff s).mp h).2 _ hj _ hb).2
    rw [Nat.div_add_mod'] at this
    omega
  · rw [memRead, List.getD_eq_getElem?_getD, List.getElem?_eq_none (by rw [h.1]; omega)] at hb
    simp at hb

end Sys2Proof.Machine
end

