-- ==== Sys2Proof/Laws/Bits.lean ====
section
/-! SUPPORT. The bits of a block after each write of the word array, and that equal bits are equal words: what the provers cite
instead of unfolding words and masks. -/

namespace Sys2Proof.Machine

/-- A scan of an index range answers its least hit. -/
theorem find_range_eq_some_iff {n i : Nat} {f : Nat → Bool} :
    (List.range n).find? f = some i ↔ i < n ∧ f i = true ∧ ∀ j, j < i → f j = false := by
  rw [List.find?_range_eq_some]; simp; tauto

/-! ## Bits, words and the integer view -/

/-- Bits are a function of the instance and the word array. -/
theorem bit_congr {s t : State} (hc : t.cfg = s.cfg) (hw : t.words = s.words) (p : Nat) : t.bit p = s.bit p := by
  simp [State.bit, extract, memRead, hc, hw]

/-- Bit i of word j has position j * WW + i. -/
theorem bit_at_word (s : State) {j i : Nat} (hi : i < s.cfg.ww) :
    s.bit (j * s.cfg.ww + i) = (memRead s j).getLsbD i := by
  rw [bit_eq_getLsbD, Nat.mul_comm, Nat.mul_add_div s.cfg.ww_pos, Nat.mul_add_mod, Nat.div_eq_of_lt hi,
    Nat.mod_eq_of_lt hi, Nat.add_zero]

/-- Masked states of one instance with equal bits have equal words. -/
theorem words_eq_of_bits {s t : State} (hs : s.Masked) (ht : t.Masked) (hc : s.cfg = t.cfg)
    (h : ∀ p, s.bit p = t.bit p) : s.words = t.words := by
  refine words_ext (by rw [hs.1, ht.1, hc]) fun j hj => ?_
  rw [hs.1] at hj
  ext i hi
  simp only [← BitVec.getLsbD_eq_getElem]
  by_cases hw : i < s.cfg.ww
  · rw [← bit_at_word s hw, h, hc, bit_at_word t (by rwa [← hc])]
  · have a := (((masked_iff s).mp hs).2 j hj i)
    have b := (((masked_iff t).mp ht).2 j (by rwa [← hc]) i)
    rw [← hc] at b
    cases ha : (memRead s j).getLsbD i <;> cases hb : (memRead t j).getLsbD i <;>
      simp only [ha, hb, forall_const] at a b ⊢ <;> omega

/-- To find V, find the bits. -/
theorem value_eq_of_bits {s : State} (h : s.Masked) {v : Nat} (hb : ∀ p, s.bit p = v.testBit p) : s.value = v :=
  Nat.eq_of_testBit_eq fun p => by rw [testBit_value h, hb]

/-- An answer changes no bit and no word. -/
theorem respond_value (s : State) (r : Response) : (respond s r).value = s.value := rfl

theorem respond_masked_iff (s : State) (r : Response) : (respond s r).Masked ↔ s.Masked := masked_congr rfl rfl

/-- A word within its mask is within WW bits. -/
theorem ones_of_wMask {c : Config} {j : Nat} {v : Word} (h : v &&& ~~~wMask c j = 0) : v &&& ~~~c.ones = 0 := by
  rw [and_not_eq_zero_iff] at *
  intro i hi
  have := h i hi
  rw [Config.getLsbD_ones]
  unfold wMask at this
  split at this
  · rw [Config.getLsbD_msbMask] at this; simp at this; simp [this]
  · rwa [Config.getLsbD_ones] at this

/-! ## Bits after a write of every word -/

theorem bit_memWriteAll (s : State) (f : Nat → Word) {p : Nat} (hp : p < s.cfg.n) :
    (memWriteAll s f).bit p = (f (p / s.cfg.ww)).getLsbD (p % s.cfg.ww) := by
  rw [bit_eq_getLsbD, memWriteAll_cfg]
  have hj : p / s.cfg.ww < s.cfg.w := idxOf_lt hp
  rw [memRead_memWriteAll s f hj, BitVec.getLsbD_and, getLsbD_wMask _ hj, Nat.div_add_mod']
  simp [hp, Nat.mod_lt p s.cfg.ww_pos]

/-! ## Bits after a write of one word that differs in one bit -/

theorem bit_rawWrite_one {s : State} (h : s.Masked) {pos : Nat} (hp : pos < s.cfg.n) (v : Word) (q : Nat)
    (hv : ∀ i, i ≠ pos % s.cfg.ww → v.getLsbD i = (memRead s (pos / s.cfg.ww)).getLsbD i) :
    (rawWrite s (pos / s.cfg.ww) v).bit q = if q = pos then v.getLsbD (pos % s.cfg.ww) else s.bit q := by
  have hj : pos / s.cfg.ww < s.cfg.w := idxOf_lt hp
  rw [bit_eq_getLsbD, rawWrite_cfg]
  by_cases e : q / s.cfg.ww = pos / s.cfg.ww
  · rw [e, memRead_rawWrite_same s v (by rw [h.1]; exact hj)]
    split
    · next h2 => rw [h2]
    · next hne =>
      rw [bit_eq_getLsbD, e]
      apply hv
      intro e2; apply hne
      rw [← Nat.div_add_mod' q s.cfg.ww, e, e2, Nat.div_add_mod']
  · rw [memRead_rawWrite_other s v e, if_neg (by rintro rfl; exact e rfl), bit_eq_getLsbD]

theorem rawWrite_one_masked {s : State} (h : s.Masked) {pos : Nat} (hp : pos < s.cfg.n) (v : Word)
    (hv : ∀ i, i ≠ pos % s.cfg.ww → v.getLsbD i = (memRead s (pos / s.cfg.ww)).getLsbD i) :
    (rawWrite s (pos / s.cfg.ww) v).Masked := by
  refine rawWrite_masked h _ fun hj => ?_
  rw [and_not_eq_zero_iff]
  intro i hi
  rw [getLsbD_wMask _ hj]
  by_cases e : i = pos % s.cfg.ww
  · subst e
    rw [Nat.div_add_mod']; simp [hp, Nat.mod_lt pos s.cfg.ww_pos]
  · rw [hv i e] at hi
    have := ((masked_iff s).mp h).2 _ hj i hi
    simp [this]

/-! ## The three words a bit mutator stores differ from the old word in one bit -/

theorem getLsbD_or_bitMask_other (v : Word) {k i : Nat} (h : i ≠ k) : (v ||| bitMask k).getLsbD i = v.getLsbD i := by
  simp [getLsbD_bitMask, h]

theorem getLsbD_xor_bitMask_other (v : Word) {k i : Nat} (h : i ≠ k) : (v ^^^ bitMask k).getLsbD i = v.getLsbD i := by
  simp [getLsbD_bitMask, h]

theorem getLsbD_clear_other {s : State} (hs : s.Masked) {j : Nat} (hj : j < s.cfg.w) {k i : Nat} (h : i ≠ k) :
    (memRead s j &&& notWord s.cfg (bitMask k)).getLsbD i = (memRead s j).getLsbD i := by
  rw [BitVec.getLsbD_and, getLsbD_notWord, getLsbD_bitMask]
  have := ((masked_iff s).mp hs).2 j hj i
  cases hb : (memRead s j).getLsbD i
  · simp
  · simp [this hb, h]

/-! ## Two instances of the same N -/

theorem params_congr {c d : Config} (h : c.n = d.n) : c.w = d.w ∧ c.ww = d.ww ∧ ∀ j, wMask c j = wMask d j := by
  refine ⟨by simp [Config.w, h], by simp [Config.ww, h], fun j => ?_⟩
  simp [wMask, Config.msbMask, Config.ones, Config.total, Config.r, Config.w, Config.ww, h]

end Sys2Proof.Machine
end

