-- ==== Sys2Proof/Laws/Exec.lean ====
section
/-! SUPPORT. What every command does, whatever it is: it answers a next state, with exactly one response more, on the same
instance, and takes no host move. The one inversion lemma over `exec` that later proofs cite. -/

namespace Sys2Proof.Machine

/-- `t` is `s` after one answer: same instance, same pending moves, one response more. -/
abbrev Answered (s t : State) : Prop :=
  t.cfg = s.cfg ∧ t.cmds = s.cmds ∧ ∃ r, t.rsps = s.rsps ++ [r]

theorem respond_answered {s u : State} (r : Response) (hc : u.cfg = s.cfg)
    (hm : u.cmds = s.cmds) (hr : u.rsps = s.rsps) : Answered s (respond u r) :=
  ⟨by simp [hc], by simp [hm], r, by simp [hr]⟩

theorem takeFault_answered (s : State) (cause : FCause) : Answered s (takeFault s cause) :=
  ⟨rfl, rfl, _, rfl⟩

theorem unlessHalted_answered {s body : State} (h : Answered s body) :
    Answered s (unlessHalted s body) := by
  unfold unlessHalted; split
  · exact ⟨rfl, rfl, _, rfl⟩
  · exact h

theorem atBit_answered {s : State} {body : Nat → Nat → State} (pos : Nat)
    (h : ∀ j k, Answered s (body j k)) : Answered s (atBit s pos body) := by
  unfold atBit; split
  · exact takeFault_answered s _
  · exact h _ _

theorem atWord_answered {s body : State} (idx : Nat) (h : Answered s body) :
    Answered s (atWord s idx body) := by
  unfold atWord; split
  · exact takeFault_answered s _
  · exact h

theorem ifExists_answered {s body : State} (b : Bool) (h : Answered s body) :
    Answered s (ifExists s b body) := by
  unfold ifExists; split
  · exact h
  · exact takeFault_answered s _

/-- Every command answers a next state with one response more. -/
theorem exec_answers (i : Instr) (s : State) : ∃ t, exec i s = .next t ∧ Answered s t := by
  cases i
  case test p => exact ⟨_, rfl, unlessHalted_answered (atBit_answered p fun _ _ => respond_answered _ rfl rfl rfl)⟩
  case rdw i => exact ⟨_, rfl, unlessHalted_answered (atWord_answered i (respond_answered _ rfl rfl rfl))⟩
  case wrw i _ => exact ⟨_, rfl, unlessHalted_answered (atWord_answered i (respond_answered _ rfl rfl rfl))⟩
  case rstb p => exact ⟨_, rfl, unlessHalted_answered (atBit_answered p fun _ _ => respond_answered _ rfl rfl rfl)⟩
  case flpb p => exact ⟨_, rfl, unlessHalted_answered (atBit_answered p fun _ _ => respond_answered _ rfl rfl rfl)⟩
  case setb p v =>
    refine ⟨_, rfl, unlessHalted_answered (atBit_answered p fun _ _ => ?_)⟩
    cases v <;> exact respond_answered _ rfl rfl rfl
  case ldi _ => exact ⟨_, rfl, unlessHalted_answered (ifExists_answered _ (respond_answered _ rfl rfl rfl))⟩
  case lda _ => exact ⟨_, rfl, unlessHalted_answered (ifExists_answered _ (respond_answered _ rfl rfl rfl))⟩
  all_goals exact ⟨_, rfl, unlessHalted_answered (respond_answered _ rfl rfl rfl)⟩

/-- A halted block refuses whatever is presented (60_exceptions.md R146). -/
theorem exec_of_halted {s : State} (h : s.fault = true) (i : Instr) : exec i s = .next (refuse s) := by
  cases i <;> exact congrArg Host.Outcome.next (unlessHalted_of_halted h _)

end Sys2Proof.Machine
end

