-- ==== Sys2Proof/Laws/PerInstr.lean ====
section
/-! SUPPORT. Per instruction: the encoder's command fits the ports that carry it (30_encoding.md R62 to R64): the packed word has
PW+6 bits and the data bus DW bits. -/

namespace Sys2Proof.Laws

/-- The packed word of an opcode, a value bit and a position fits PW+6 bits. -/
theorem packWord_lt (c : Config) {op pos : Nat} (val : Bool) (ho : op < 32) (hp : pos < 2 ^ c.pw) :
    packWord c op val pos < 2 ^ (c.pw + 6) := by
  have hv : val.toNat * 2 ^ c.pw ≤ 2 ^ c.pw := by cases val <;> simp
  have hm : op * 2 ^ (c.pw + 1) ≤ 31 * 2 ^ (c.pw + 1) := Nat.mul_le_mul_right _ (by omega)
  have h1 : 2 ^ (c.pw + 1) = 2 * 2 ^ c.pw := by ring
  have h6 : 2 ^ (c.pw + 6) = 64 * 2 ^ c.pw := by ring
  unfold packWord
  omega

/-- Every opcode is a 5-bit number (30_encoding.md R65). -/
theorem opcode_lt (i : Instr) : i.opcode < 32 := by cases i <;> simp [Instr.opcode]

/-- Elements one below the other make a number of 64 bits each. -/
theorem foldl_elems_lt (l : List Word) (a k : Nat) (h : a < 2 ^ k) :
    l.foldl (fun acc e => acc * 2 ^ 64 + e.toNat) a < 2 ^ (k + 64 * l.length) := by
  induction l generalizing a k with
  | nil => simpa using h
  | cons e es ih =>
    have he : e.toNat < 2 ^ 64 := e.isLt
    have h64 : 2 ^ (k + 64) = 2 ^ k * 2 ^ 64 := pow_add ..
    have hstep : a * 2 ^ 64 + e.toNat < 2 ^ (k + 64) := by
      have := Nat.mul_le_mul_right (2 ^ 64) (Nat.succ_le_of_lt h)
      rw [Nat.succ_mul] at this
      omega
    have := ih _ (k + 64) hstep
    rw [List.foldl_cons, List.length_cons]
    convert this using 2
    ring

/-- A word is no wider than the bus. -/
theorem lt_bus (c : Config) (v : Word) : v.toNat < 2 ^ c.dw :=
  lt_of_lt_of_le v.isLt (Nat.pow_le_pow_right (by decide) (by have := c.w_pos; unfold Config.dw; omega))

end Sys2Proof.Laws

/-- In every instance that has an encoding of the instruction, its canonical command fits the ports. -/
def Sys2Proof.Laws.EncodeFits.Statement (i : Sys2Proof.Instr) : Prop :=
  ∀ c : Sys2Proof.Config, i.wf c = true →
    (Sys2Proof.encode c i).word < 2 ^ (c.pw + 6) ∧ (Sys2Proof.encode c i).wdata < 2 ^ c.dw

namespace Sys2Proof.Laws.EncodeFits

theorem all : Statement .all := fun c _ =>
  ⟨packWord_lt c _ (opcode_lt _) (Nat.two_pow_pos _), Nat.two_pow_pos _⟩

theorem any : Statement .any := fun c _ =>
  ⟨packWord_lt c _ (opcode_lt _) (Nat.two_pow_pos _), Nat.two_pow_pos _⟩

theorem none : Statement .none := fun c _ =>
  ⟨packWord_lt c _ (opcode_lt _) (Nat.two_pow_pos _), Nat.two_pow_pos _⟩

theorem count : Statement .count := fun c _ =>
  ⟨packWord_lt c _ (opcode_lt _) (Nat.two_pow_pos _), Nat.two_pow_pos _⟩

theorem size : Statement .size := fun c _ =>
  ⟨packWord_lt c _ (opcode_lt _) (Nat.two_pow_pos _), Nat.two_pow_pos _⟩

theorem ffo : Statement .ffo := fun c _ =>
  ⟨packWord_lt c _ (opcode_lt _) (Nat.two_pow_pos _), Nat.two_pow_pos _⟩

theorem ffz : Statement .ffz := fun c _ =>
  ⟨packWord_lt c _ (opcode_lt _) (Nat.two_pow_pos _), Nat.two_pow_pos _⟩

theorem getm : Statement .getm := fun c _ =>
  ⟨packWord_lt c _ (opcode_lt _) (Nat.two_pow_pos _), Nat.two_pow_pos _⟩

theorem seta : Statement .seta := fun c _ =>
  ⟨packWord_lt c _ (opcode_lt _) (Nat.two_pow_pos _), Nat.two_pow_pos _⟩

theorem rsta : Statement .rsta := fun c _ =>
  ⟨packWord_lt c _ (opcode_lt _) (Nat.two_pow_pos _), Nat.two_pow_pos _⟩

theorem flpa : Statement .flpa := fun c _ =>
  ⟨packWord_lt c _ (opcode_lt _) (Nat.two_pow_pos _), Nat.two_pow_pos _⟩

theorem test (pos : Nat) : Statement (.test pos) := fun c h =>
  ⟨packWord_lt c _ (opcode_lt _) (of_decide_eq_true h), Nat.two_pow_pos _⟩

theorem rstb (pos : Nat) : Statement (.rstb pos) := fun c h =>
  ⟨packWord_lt c _ (opcode_lt _) (of_decide_eq_true h), Nat.two_pow_pos _⟩

theorem flpb (pos : Nat) : Statement (.flpb pos) := fun c h =>
  ⟨packWord_lt c _ (opcode_lt _) (of_decide_eq_true h), Nat.two_pow_pos _⟩

theorem rdw (idx : Nat) : Statement (.rdw idx) := fun c h =>
  ⟨packWord_lt c _ (opcode_lt _) (of_decide_eq_true h), Nat.two_pow_pos _⟩

theorem setb (pos : Nat) (val : Bool) : Statement (.setb pos val) := fun c h =>
  ⟨packWord_lt c _ (opcode_lt _) (of_decide_eq_true h), Nat.two_pow_pos _⟩

theorem ldi (imm : Word) : Statement (.ldi imm) := fun c _ =>
  ⟨packWord_lt c _ (opcode_lt _) (Nat.two_pow_pos _), lt_bus c imm⟩

theorem lda (elems : List Word) : Statement (.lda elems) := fun c h => by
  refine ⟨packWord_lt c _ (opcode_lt _) (Nat.two_pow_pos _), ?_⟩
  have hl : elems.length = c.w := by simpa [Instr.wf] using h
  have hb := foldl_elems_lt elems 0 0 (by decide)
  rwa [Nat.zero_add, hl] at hb

theorem wrw (idx : Nat) (data : Word) : Statement (.wrw idx data) := fun c h => by
  simp only [Instr.wf, Bool.and_eq_true, decide_eq_true_eq] at h
  exact ⟨packWord_lt c _ (opcode_lt _) h.1, lt_bus c data⟩

end Sys2Proof.Laws.EncodeFits
end

