-- ==== Sys2Proof/Laws/Port.lean ====
section
/-! SUPPORT. What one rising edge without reset does, case by case, so that no later proof unfolds `tick` (30_encoding.md R61). -/

namespace Sys2Proof.Machine

/-- An idle port with no command presented holds everything. -/
theorem tick_idle {p : PortState} {i : PortIn} (hr : i.rst = false) (hf : p.inFlight = none)
    (hv : i.cmdValid = false) : tick p i = .next (p, outputs p.core true none) := by
  simp [tick, hr, hf, hv]

/-- An idle port accepts the presented command and draws its latency. -/
theorem tick_accept {p : PortState} {i : PortIn} (hr : i.rst = false) (hf : p.inFlight = none)
    (hv : i.cmdValid = true) :
    tick p i = .next ({ p with inFlight := some (i.command p.core.cfg, p.latency (i.command p.core.cfg)),
                               accepted := p.accepted + 1 }, outputs p.core true none) := by
  simp [tick, hr, hf, hv]

/-- A command in flight comes one edge nearer to its response. -/
theorem tick_wait {p : PortState} {i : PortIn} {m : Command} {k : Nat} (hr : i.rst = false)
    (hf : p.inFlight = some (m, k + 1)) :
    tick p i = .next ({ p with inFlight := some (m, k) }, outputs p.core false none) := by
  simp [tick, hr, hf]

/-- At the response edge the block has made one step on the command. -/
theorem tick_answer {p : PortState} {i : PortIn} {m : Command} {t : State} (hr : i.rst = false)
    (hf : p.inFlight = some (m, 0)) (ht : step (p.core.present m) = .next t) :
    tick p i = .next ({ p with core := t, inFlight := none }, outputs t false t.rsps.getLast?) := by
  simp [tick, hr, hf, ht]

end Sys2Proof.Machine
end

