-- ==== Sys2Proof/Laws/Run.lean ====
section
/-! SUPPORT. The step answers a next state from every state, and a run is unfolded one step at a time. -/

namespace Sys2Proof.Machine

/-- The machine stops nowhere: every step answers a next state. -/
theorem step_next (s : State) : ∃ t, step s = .next t := by
  unfold step
  cases fetch s with
  | idle => exact ⟨_, rfl⟩
  | reset t => exact ⟨_, rfl⟩
  | reserved t => exact ⟨_, rfl⟩
  | instr i t => exact (exec_answers i t).imp fun _ h => h.1

/-- What a step can be: idle, a reset, a command refused or carried out by `exec`, or a reserved opcode. -/
theorem step_cases (s : State) :
    (s.cmds = [] ∧ step s = .next s) ∨
    (∃ rest, s.cmds = .reset :: rest ∧ step s = .next (hardReset { s with cmds := rest })) ∨
    (∃ m rest i, s.cmds = .command m :: rest ∧ decode s.cfg m = .ok i ∧
      step s = exec i { s with cmds := rest }) ∨
    (∃ m rest e, s.cmds = .command m :: rest ∧ decode s.cfg m = .error e ∧
      step s = .next (illegalOpcode { s with cmds := rest })) := by
  match h : s.cmds with
  | [] => exact .inl ⟨rfl, by simp [step, fetch, h]⟩
  | .reset :: rest => exact .inr (.inl ⟨rest, rfl, by simp [step, fetch, h]⟩)
  | .command m :: rest =>
    cases hd : decode s.cfg m with
    | ok i => exact .inr (.inr (.inl ⟨m, rest, i, rfl, hd, by simp [step, fetch, h, hd]⟩))
    | error e => exact .inr (.inr (.inr ⟨m, rest, e, rfl, hd, by simp [step, fetch, h, hd]⟩))

/-- One step of a run, for any machine of the host's interface. -/
theorem coreRun_succ (M : Host.Core) {s t : M.State} (h : M.step s = .next t) (k : Nat) :
    M.run (k + 1) s = M.run k t := by
  rw [Host.Core.run, h]

theorem run_zero (s : State) : core.run 0 s = .next s := rfl

/-- A run's first step, and the rest. -/
theorem run_succ {s t : State} (h : step s = .next t) (k : Nat) : core.run (k + 1) s = core.run k t :=
  coreRun_succ core h k

/-- An invariant of the step is an invariant of every run: the induction over runs, packaged once. -/
theorem run_invariant {P : State → Prop} (hstep : ∀ s t, P s → step s = .next t → P t) :
    ∀ (k : Nat) (s t : State), P s → core.run k s = .next t → P t := by
  intro k
  induction k with
  | zero =>
    intro s t hs h
    rw [run_zero] at h
    cases h
    exact hs
  | succ k ih =>
    intro s t hs h
    obtain ⟨u, hu⟩ := step_next s
    rw [run_succ hu] at h
    exact ih u t (hstep s u hs hu) h

end Sys2Proof.Machine
end

