-- ==== Sys2Proof/Tests/Slice0.lean ====
section
/-! SUPPORT. Tests on fixed values, each expected value from 95_test_vectors.md (the table named at the test), and for every
obligation with hypotheses a witness that meets all of them together. -/

namespace Sys2Proof.Tests

open Sys2Proof.Machine

/-! ## Instances and small states -/

def n1 : Config := ⟨1, by decide, .little⟩
def n8 : Config := ⟨8, by decide, .little⟩
def n9 : Config := ⟨9, by decide, .little⟩
def n17 : Config := ⟨17, by decide, .little⟩
def n64 : Config := ⟨64, by decide, .little⟩
def n65 : Config := ⟨65, by decide, .little⟩
def n65big : Config := ⟨65, by decide, .big⟩
def n100 : Config := ⟨100, by decide, .little⟩
def n128 : Config := ⟨128, by decide, .little⟩
def n129 : Config := ⟨129, by decide, .little⟩

/-- A block that is not halted and holds these words. -/
def block (c : Config) (ws : List Word) : State := { State.resetFor c with words := ws }

/-- The same block after a first INDEX_RANGE fault. -/
def halted (c : Config) (ws : List Word) : State :=
  { block c ws with fault := true, fcause := .indexRange, rsps := [.faulted] }

/-- The words and the response after one command. -/
def answer (i : Instr) (s : State) : Option (List Word × Option Response) :=
  match exec i s with
  | .next t => some (t.words, t.rsps.getLast?)
  | _ => Option.none

/-- The words, the status and the response after one step. -/
def stepAnswer (s : State) : Option (List Word × BitVec 3 × Option Response) :=
  match step s with
  | .next t => some (t.words, t.status, t.rsps.getLast?)
  | _ => Option.none

/-- The bit a command answers. -/
def bitOf (i : Instr) (s : State) : Option Bool := (answer i s).bind fun a => a.2.map Response.bit

/-- The index a command answers. -/
def idxOfAnswer (i : Instr) (s : State) : Option Nat := (answer i s).bind fun a => a.2.map Response.idx

/-! ## Parameters (T-PAR) -/

theorem test_params_9 : (n9.ww, n9.w, n9.r, n9.pw, n9.msbMask, n9.bytes) = (16, 1, 9, 4, 0x01FF, 2) := by decide
theorem test_params_64 : (n64.ww, n64.w, n64.r, n64.pw, n64.msbMask, n64.bytes)
    = (64, 1, 0, 7, 0xFFFFFFFFFFFFFFFF, 8) := by decide
theorem test_params_129 : (n129.ww, n129.w, n129.r, n129.pw, n129.msbMask, n129.bytes) = (64, 3, 1, 8, 0x1, 24) := by
  decide

/-! ## Loads (T-LD) -/

theorem test_ldi : answer (.ldi 0x1A5) (block n8 [0xFF]) = some ([0xA5], some .done) := by decide
theorem test_ldi_masks : answer (.ldi 0xFFFFFFFF) (block n17 [0]) = some ([0x0001FFFF], some .done) := by decide
theorem test_lda : answer (.lda [0x10000F000000000F, 0xFFFFFFFFFFFFFFFF]) (block n65 [0, 0])
    = some ([0xFFFFFFFFFFFFFFFF, 0x1], some .done) := by decide
theorem test_lda_three : answer (.lda [0x3, 0xA, 0xB]) (block n129 [7, 7, 1])
    = some ([0xB, 0xA, 0x1], some .done) := by decide

/-! ## Queries (T-Q) -/

theorem test_test : (bitOf (.test 8) (block n9 [0x0105]), bitOf (.test 1) (block n9 [0x0105]))
    = (some true, some false) := by decide
theorem test_test_second_word : (bitOf (.test 64) (block n65 [0, 1]), bitOf (.test 63) (block n65 [0, 1]))
    = (some true, some false) := by decide
theorem test_all : (bitOf .all (block n9 [0x01FF]), bitOf .all (block n65 [0xFFFFFFFFFFFFFFFF, 0]))
    = (some true, some false) := by decide
theorem test_any : (bitOf .any (block n65 [0, 1]), bitOf .any (block n65 [0, 0])) = (some true, some false) := by
  decide
theorem test_none : (bitOf .none (block n1 [0]), bitOf .none (block n65 [0, 1])) = (some true, some false) := by
  decide
theorem test_count : idxOfAnswer .count (block n9 [0x0105]) = some 3 := by decide
theorem test_count_two_words : idxOfAnswer .count (block n65 [0xFFFFFFFFFFFFFFFF, 1]) = some 65 := by decide
theorem test_size : answer .size (block n65 [0, 0]) = some ([0, 0], some ⟨false, false, 65, 0⟩) := by decide
theorem test_ffo : idxOfAnswer .ffo (block n100 [0, 0x0000000800000000]) = some 99 := by decide
theorem test_ffo_none : idxOfAnswer .ffo (block n9 [0]) = some 9 := by decide
theorem test_ffz : idxOfAnswer .ffz (block n65 [0xFFFFFFFFFFFFFFFF, 0]) = some 64 := by decide
theorem test_ffz_full : idxOfAnswer .ffz (block n65 [0xFFFFFFFFFFFFFFFF, 1]) = some 65 := by decide
theorem test_getm : answer .getm (block n9 [0x0105]) = some ([0x0105], some ⟨false, false, 0, 0x01FF⟩) := by decide

/-! ## Mutators (T-M) -/

theorem test_seta : answer .seta (block n100 [5, 0])
    = some ([0xFFFFFFFFFFFFFFFF, 0x0000000FFFFFFFFF], some .done) := by decide
theorem test_setb : answer (.setb 64 true) (block n65 [0, 0]) = some ([0, 1], some .done) := by decide
theorem test_setb_false : answer (.setb 8 false) (block n9 [0x01FF]) = some ([0x00FF], some .done) := by decide
theorem test_rsta : answer .rsta (block n9 [0x01A5]) = some ([0], some .done) := by decide
theorem test_rstb : answer (.rstb 64) (block n65 [7, 1]) = some ([7, 0], some .done) := by decide
theorem test_rstb_clear : answer (.rstb 1) (block n9 [0x01A5]) = some ([0x01A5], some .done) := by decide
theorem test_flpa : answer .flpa (block n9 [0x00A5]) = some ([0x015A], some .done) := by decide
theorem test_flpa_two_words : answer .flpa (block n65 [0x00FF00FF00FF00FF, 1])
    = some ([0xFF00FF00FF00FF00, 0], some .done) := by decide
theorem test_flpb : answer (.flpb 8) (block n9 [0x00A5]) = some ([0x01A5], some .done) := by decide
theorem test_flpb_top : answer (.flpb 99) (block n100 [0, 0]) = some ([0, 0x0000000800000000], some .done) := by
  decide

/-! ## Word access (T-W) -/

theorem test_rdw : answer (.rdw 1) (block n65 [0xFFFFFFFFFFFFFFFF, 1])
    = some ([0xFFFFFFFFFFFFFFFF, 1], some ⟨false, false, 0, 1⟩) := by decide
theorem test_wrw : answer (.wrw 1 0xFFFFFFFFFFFFFFFF) (block n100 [0, 0])
    = some ([0, 0x0000000FFFFFFFFF], some .done) := by decide
theorem test_wrw_low : answer (.wrw 0 0x123456789ABCDEF0) (block n65 [0, 0])
    = some ([0x123456789ABCDEF0, 0], some .done) := by decide

/-! ## Faults and the halted state (T-F) -/

theorem test_test_out_of_range : stepAnswer ((block n8 [0x80]).present ⟨0x028, 0⟩)
    = some ([0x80], 0b011, some .faulted) := by decide
theorem test_halted_refuses : stepAnswer ((halted n8 [0x80]).present ⟨0x240, 0⟩)
    = some ([0x80], 0b011, some .faulted) := by decide
theorem test_halted_refuses_reserved : stepAnswer ((halted n8 [0x80]).present ⟨0x000, 0⟩)
    = some ([0x80], 0b011, some .faulted) := by decide
theorem test_reset_move : stepAnswer { halted n8 [0x80] with cmds := [.reset] }
    = some ([0], 0b000, Option.none) := by decide
theorem test_reserved : stepAnswer ((block n9 [0]).present ⟨0x3E0, 0⟩) = some ([0], 0b101, some .faulted) := by
  decide
theorem test_lda_absent : stepAnswer ((block n9 [0]).present ⟨0x2E0, 0⟩) = some ([0], 0b101, some .faulted) := by
  decide
theorem test_ldi_absent : stepAnswer ((block n65 [1, 0]).present ⟨0x1600, 5⟩)
    = some ([1, 0], 0b101, some .faulted) := by decide
theorem test_unused_fields : stepAnswer ((block n9 [0]).present ⟨0x0BF, 7⟩)
    = some ([0], 0b000, some .done) := by decide

/-! ## Images (T-IMG) -/

theorem test_image_little : imageBytes (block n9 [0x01A5]) = [0xA5, 0x01] := by decide
theorem test_image_big : imageBytes (block n65big [0x1122334455667788, 1])
    = [0x11, 0x22, 0x33, 0x44, 0x55, 0x66, 0x77, 0x88, 0, 0, 0, 0, 0, 0, 0, 1] := by decide

/-! ## Decoding (T-ENC): the word of every constructor, N = 9 unless said -/

/-- The instruction of a command, none where the decoder rejects it. -/
def dec (c : Config) (w d : Nat) : Option Instr := (decode c ⟨w, d⟩).toOption

theorem test_decode_test : dec n9 0b0000100011 0 = some (.test 3) := by decide
theorem test_decode_all : dec n9 0b0001000000 0 = some .all := by decide
theorem test_decode_any : dec n9 0b0001100000 0 = some .any := by decide
theorem test_decode_none : dec n9 0b0010000000 0 = some .none := by decide
theorem test_decode_count : dec n9 0b0010100000 0 = some .count := by decide
theorem test_decode_size : dec n9 0b0011000000 0 = some .size := by decide
theorem test_decode_ffo : dec n9 0b0011100000 0 = some .ffo := by decide
theorem test_decode_ffz : dec n9 0b0100000000 0 = some .ffz := by decide
theorem test_decode_getm : dec n9 0b0100100000 0 = some .getm := by decide
theorem test_decode_rdw : dec n65 0x0A01 0 = some (.rdw 1) := by decide
theorem test_decode_seta : dec n9 0b1000000000 0 = some .seta := by decide
theorem test_decode_setb : (dec n9 0b1000111000 0, dec n9 0b1000101000 0)
    = (some (.setb 8 true), some (.setb 8 false)) := by decide
theorem test_decode_rsta : dec n9 0b1001000000 0 = some .rsta := by decide
theorem test_decode_rstb : dec n9 0b1001101000 0 = some (.rstb 8) := by decide
theorem test_decode_flpa : dec n9 0b1010000000 0 = some .flpa := by decide
theorem test_decode_flpb : dec n9 0b1010100011 0 = some (.flpb 3) := by decide
theorem test_decode_ldi : dec n9 0b1011000000 0x1A5 = some (.ldi 0x1A5) := by decide
theorem test_decode_lda : dec n65 0x1700 0x10000F000000000FFFFFFFFFFFFFFFFF
    = some (.lda [0x10000F000000000F, 0xFFFFFFFFFFFFFFFF]) := by decide
theorem test_decode_wrw : dec n9 0b1100000000 0xABCD1234 = some (.wrw 0 0x1234) := by decide
theorem test_decode_reserved : (dec n9 0b0000000000 0, dec n9 0b0101100000 0, dec n9 0b1100100000 0)
    = (Option.none, Option.none, Option.none) := by decide

/-- The reserved opcode is named (30_encoding.md R67). -/
theorem test_decode_names_reserved :
    (match decode n9 ⟨0b1111100000, 0⟩ with | .error (.reservedOpcode op) => op | _ => 0) = 0x1F := by decide

/-- The opcode-table numbering: bits 4..0 are `cmd_op` (30_encoding.md R65). -/
theorem test_table_word : (decodeTableWord 8 0x0A, decodeTableWord 8 0x18, decodeTableWord 8 0x1F)
    = (some (.rdw 0), some (.wrw 0 0), Option.none) := by decide

/-- The first step after reset runs the placed command: SETB 0, 0 on the reset block answers done. -/
theorem test_with_fetch_word : stepAnswer (State.reset.withFetchWord 8 0x10)
    = some ([0xFFFFFFFFFFFFFFFF, 1], 0, some .done) := by decide

/-! ## The assembler (R72, R73) -/

theorem test_assemble_setb : assembleLine n9 ['S', 'E', 'T', 'B', ' ', '8'] = some (.setb 8 true) := by decide
theorem test_assemble_wrw :
    assembleLine n65 ['W', 'R', 'W', ' ', '1', ',', ' ', '0', 'x', 'F', 'f', ';', 'x'] = some (.wrw 1 255) := by decide
theorem test_assemble_lda_count :
    (assembleLine n65 (['L', 'D', 'A', ' '] ++ [Char.ofNat 123, '3', ',', '4', Char.ofNat 125]),
      assembleLine n65 (['L', 'D', 'A', ' '] ++ [Char.ofNat 123, '3', Char.ofNat 125]),
      assembleLine n65 ['L', 'D', 'I', ' ', '5'])
    = (some (.lda [3, 4]), Option.none, Option.none) := by decide

/-! ## WellFormed: one ill-formed term for each check, refused -/

theorem test_wf_refuses_test : Instr.wf n9 (.test 16) = false := by decide
theorem test_wf_refuses_rdw : Instr.wf n9 (.rdw 16) = false := by decide
theorem test_wf_refuses_setb : Instr.wf n9 (.setb 16 true) = false := by decide
theorem test_wf_refuses_rstb : Instr.wf n9 (.rstb 16) = false := by decide
theorem test_wf_refuses_flpb : Instr.wf n9 (.flpb 16) = false := by decide
theorem test_wf_refuses_lda : Instr.wf n65 (.lda [1]) = false := by decide
theorem test_wf_refuses_wrw_index : Instr.wf n9 (.wrw 16 0) = false := by decide
theorem test_wf_refuses_wrw_data : Instr.wf n9 (.wrw 0 0x10000) = false := by decide
theorem test_wf_accepts : (Instr.wf n9 (.test 15) && Instr.wf n65 (.lda [1, 2]) && Instr.wf n9 (.wrw 15 0xFFFF)) = true := by
  decide

/-! ## Witnesses: the hypotheses of every obligation, met together -/

theorem witness_StorageSizesFollowFromN : n9.n ≤ 64 ∧ n64.n ≤ 64 ∧ 64 < n65.n := by decide
theorem witness_WordMaskKeepsExactlyTheLogicalBits : 0 < n9.w ∧ 0 < n65.w ∧ 1 < n65.w := by decide
theorem witness_WordPrimitivesCountAndFindBits :
    ((0x0105 : Word) &&& ~~~n9.ones = 0 ∧ (0x0105 : Word) ≠ 0 ∧ (0x0105 : Word) ≠ n9.ones) ∧
    ((0x8000 : Word) &&& ~~~n9.ones = 0 ∧ (0x8000 : Word) ≠ 0) ∧ (0x7FFF : Word) ≠ n9.ones := by decide
theorem witness_IndexerAddressesALogicalBit :
    (0 < n65.n ∧ idxOf n65 0 = (0, 0)) ∧ (64 < n65.n ∧ idxOf n65 64 = (1, 0) ∧ 1 = n65.w - 1 ∧ n65.r ≠ 0) := by decide
theorem witness_MaskedWriterStoresUnderTheMask :
    ((block n65 [0, 0]).words.length = n65.w ∧ 0 < n65.w ∧ 0 ≠ n65.w - 1 ∧ (0xFF : Word) &&& ~~~n65.ones = 0) ∧
    (1 < n65.w ∧ 1 = n65.w - 1 ∧ n65.r ≠ 0) ∧
    ((block n128 [0, 0]).words.length = n128.w ∧ 1 < n128.w ∧ 1 = n128.w - 1 ∧ n128.r = 0 ∧
      (0xFF : Word) &&& ~~~n128.ones = 0) := by decide
theorem witness_IntegerViewIsTheWordArray :
    ((block n9 [0xFE00]).words.length = n9.w ∧ ∀ j, j < n9.w → memRead (block n9 [0xFE00]) j &&& ~~~n9.ones = 0) ∧
    ((block n65 [5, 1]).Masked ∧ (halted n65 [5, 1]).Masked ∧ (block n65 [5, 1]).cfg = (halted n65 [5, 1]).cfg ∧
      (block n65 [5, 1]).value = (halted n65 [5, 1]).value) ∧ 511 < 2 ^ n9.n := by decide
theorem witness_ResetMoveGivesTheResetState :
    ({ halted n9 [1] with cmds := [.reset, .command ⟨0x0A0, 0⟩] } : State).cmds
      = .reset :: [.command ⟨0x0A0, 0⟩] := by decide
theorem witness_EveryStepKeepsTheInvariant :
    ((halted n9 [0x105]).present ⟨0x0A0, 0⟩).Inv ∧
    ∃ t, step ((halted n9 [0x105]).present ⟨0x0A0, 0⟩) = .next t := ⟨by decide, _, rfl⟩
theorem witness_EveryCommandKeepsTheMaskingInvariant :
    ((block n65 [5, 1]).Masked ∧ ∃ t, exec .flpa (block n65 [5, 1]) = .next t) ∧
    ∃ t, core.run 1 { State.resetFor n65 with cmds := [.command ⟨0x1000, 0⟩] } = .next t :=
  ⟨⟨by decide, _, rfl⟩, _, rfl⟩
theorem witness_DecodeOfEncodeIsTheInstruction :
    Instr.wf n65 (.lda [1, 2]) = true ∧ Instr.wf n9 (.setb 15 true) = true ∧ Instr.wf n9 (.wrw 0 0xFFFF) = true := by
  decide
theorem witness_DecodedInstructionIsWellFormed : decode n9 ⟨0x2A3, 0⟩ = .ok (.flpb 3) := rfl
theorem witness_ExactlyTheReservedOpcodesAreRejected :
    Command.op n9 ⟨0x000, 0⟩ = 0x00 ∧ Command.op n9 ⟨0x3E0, 0⟩ = 0x1F := by decide
theorem witness_PackedFieldsReadBack : 31 < 32 ∧ 15 < 2 ^ n9.pw := by decide
theorem witness_BusIsItsElementsInReadingOrder :
    0x10000F000000000FFFFFFFFFFFFFFFFF < 2 ^ n65.dw ∧ 0 < n65.w ∧ 1 < n65.w ∧ 63 < 64 := by decide
theorem witness_UnnamedFieldsDoNotChangeTheCommand :
    (5 < 32 ∧ 0 < 2 ^ n9.pw ∧ 15 < 2 ^ n9.pw ∧ 5 ≠ 0x11 ∧ 5 ∉ [0x01, 0x11, 0x13, 0x15, 0x0A, 0x18] ∧
      5 ∉ [0x16, 0x17, 0x18]) ∧
    (0x18 < 32 ∧ 0xABCD1234 % 2 ^ n9.ww = 0x1234 % 2 ^ n9.ww) ∧
    (0x16 < 32 ∧ (2 ^ 64 + 5) % 2 ^ 64 = 5 % 2 ^ 64) ∧
    (0x17 < 32 ∧ (2 ^ 128 + 5) % 2 ^ n65.dw = 5 % 2 ^ n65.dw) := by decide
theorem witness_ListedCommandWordsDecode : n9.n = 9 ∧ n65.n = 65 := by decide
theorem witness_StepRunsTheDecodedInstruction :
    (((block n9 [0]).present ⟨0x2A3, 0⟩).cmds = .command ⟨0x2A3, 0⟩ :: [] ∧
      decode ((block n9 [0]).present ⟨0x2A3, 0⟩).cfg ⟨0x2A3, 0⟩ = .ok (.flpb 3)) ∧
    decode (block n9 [0]).cfg (tableCommand (block n9 [0]).cfg 0x15) = .ok (.flpb 0) := ⟨⟨rfl, rfl⟩, rfl⟩
theorem witness_ReservedOpcodeTakesIllegalOp :
    ((block n9 [0]).present ⟨0, 0⟩).cmds = .command ⟨0, 0⟩ :: [] ∧
    decode ((block n9 [0]).present ⟨0, 0⟩).cfg ⟨0, 0⟩ = .error (.reservedOpcode 0) ∧
    ((block n9 [0]).present ⟨0, 0⟩).fault = false := ⟨rfl, rfl, rfl⟩
theorem witness_HaltedBlockRefusesEveryCommand :
    ((halted n9 [1]).present ⟨0x240, 0⟩).cmds = .command ⟨0x240, 0⟩ :: [] ∧
    ((halted n9 [1]).present ⟨0x240, 0⟩).fault = true := by decide
theorem witness_BlockHoldsItsStateBetweenCommands : (block n9 [1]).cmds = [] := rfl
theorem witness_EffectDependsOnlyOnTheBlocksState :
    (block n9 [1]).cfg = ({ block n9 [1] with cmds := [.reset], rsps := [.done] } : State).cfg ∧
    (block n9 [1]).words = ({ block n9 [1] with cmds := [.reset], rsps := [.done] } : State).words ∧
    (block n9 [1]).fault = ({ block n9 [1] with cmds := [.reset], rsps := [.done] } : State).fault ∧
    (block n9 [1]).fcause = ({ block n9 [1] with cmds := [.reset], rsps := [.done] } : State).fcause := by decide
theorem witness_OutOfRangeIndexTakesIndexRange :
    (block n9 [1]).fault = false ∧ (block n9 [1]).cfg.n ≤ 9 ∧ (block n9 [1]).cfg.w ≤ 9 ∧ (block n9 [1]).cfg.w ≤ 1 := by
  decide
theorem witness_AbsentLoadTakesIllegalOp :
    ((block n65 [1, 0]).fault = false ∧ 64 < (block n65 [1, 0]).cfg.n) ∧
    ((block n64 [1]).fault = false ∧ (block n64 [1]).cfg.n ≤ 64) := by decide
theorem witness_FaultExactlyOutsideTheContract :
    (block n9 [1]).fault = false ∧ legal n9 (.test 8) = true ∧ legal n9 (.test 9) = false ∧
    legal n65 (.ldi 5) = false ∧ legal n65 (.wrw 1 0) = true ∧ legal n65 (.wrw 2 0) = false := by decide
theorem witness_OnlyResetLeavesTheHaltedState :
    ((halted n9 [1]).present ⟨0x240, 0⟩).fault = true ∧
    (∀ m, m ∈ ((halted n9 [1]).present ⟨0x240, 0⟩).cmds → m ≠ .reset) ∧
    ∃ t, core.run 1 ((halted n9 [1]).present ⟨0x240, 0⟩) = .next t := ⟨rfl, by decide, _, rfl⟩
theorem witness_StatusHasThreeLegalValues :
    (block n9 [1]).CauseAgrees ∧ (halted n9 [1]).CauseAgrees ∧
    ({ halted n9 [1] with fcause := .illegalOp } : State).CauseAgrees := by decide
theorem witness_LoadsOverwriteWithoutReading :
    ((∃ imm, Instr.ldi 5 = .ldi imm) ∨ ∃ elems, Instr.ldi 5 = .lda elems) ∧
    (block n9 [1]).cfg = (block n9 [2]).cfg ∧ (block n9 [1]).fault = false ∧ (block n9 [2]).fault = false ∧
    (block n9 [1]).words.length = (block n9 [1]).cfg.w ∧ (block n9 [2]).words.length = (block n9 [2]).cfg.w ∧
    legal n9 (.ldi 5) = true ∧ legal n65 (.lda [1, 2]) = true := ⟨.inl ⟨5, rfl⟩, by decide⟩
theorem witness_LoadsStoreTheElementsUnderTheMask :
    ((block n64 [1]).fault = false ∧ (block n64 [1]).words.length = (block n64 [1]).cfg.w ∧ (block n64 [1]).cfg.n ≤ 64) ∧
    ((block n65 [1, 0]).fault = false ∧ (block n65 [1, 0]).words.length = (block n65 [1, 0]).cfg.w ∧
      64 < (block n65 [1, 0]).cfg.n ∧ [(3 : Word), 4].length = (block n65 [1, 0]).cfg.w) := by decide
theorem witness_LoadsTakeTheBusModuloTwoToN :
    ((block n64 [1]).fault = false ∧ (block n64 [1]).Masked ∧ (block n64 [1]).cfg.n ≤ 64) ∧
    ((block n65 [1, 0]).fault = false ∧ (block n65 [1, 0]).Masked ∧ 64 < (block n65 [1, 0]).cfg.n ∧
      2 ^ 128 - 1 < 2 ^ (block n65 [1, 0]).cfg.dw) := by decide
theorem witness_TopBitAfterLda :
    ((block n65 [1, 0]).fault = false ∧ (block n65 [1, 0]).Masked ∧ 64 < (block n65 [1, 0]).cfg.n ∧
      [(3 : Word), 4].length = (block n65 [1, 0]).cfg.w ∧ (block n65 [1, 0]).cfg.n % 64 ≠ 0) ∧
    ((block n128 [1, 0]).fault = false ∧ (block n128 [1, 0]).Masked ∧ 64 < (block n128 [1, 0]).cfg.n ∧
      (block n128 [1, 0]).cfg.n % 64 = 0) := by decide
theorem witness_TestAnswersTheBit :
    (block n9 [0x105]).fault = false ∧ (block n9 [0x105]).Masked ∧ 0 < (block n9 [0x105]).cfg.n ∧
    8 < (block n9 [0x105]).cfg.n := by decide
theorem witness_BooleanQueriesCompareTheWords : (block n65 [0xFF, 1]).fault = false := rfl
theorem witness_CountAndScansAnswerAboutTheBits : (block n65 [0xFF, 1]).fault = false ∧ (block n65 [0xFF, 1]).Masked := by
  decide
theorem witness_SizeAndGetmAnswerConstants :
    (block n65 [0xFF, 1]).fault = false ∧ n8.n = 8 ∧ n9.n = 9 ∧ n64.n = 64 ∧ n65.n = 65 := by decide
theorem witness_QueryLawsInTheIntegerView :
    ((block n9 [0x105]).fault = false ∧ (block n9 [0x105]).Masked ∧ 8 < (block n9 [0x105]).cfg.n ∧
      (block n9 [0x105]).value ≠ 0 ∧ (block n9 [0x105]).value ≠ 2 ^ (block n9 [0x105]).cfg.n - 1) ∧
    ((block n9 [0]).Masked ∧ (block n9 [0]).value = 0) ∧
    ((block n9 [0x1FF]).Masked ∧ (block n9 [0x1FF]).value = 2 ^ (block n9 [0x1FF]).cfg.n - 1) := by decide
theorem witness_ReadOnlyOpcodesChangeNoWord :
    (Instr.opcode (.rdw 0) < 16 ∧ ∃ t, exec (.rdw 0) (block n9 [1]) = .next t ∧ t.fault = (block n9 [1]).fault) ∧
    (Instr.opcode (.test 9) < 16 ∧ ∃ t, exec (.test 9) (block n9 [1]) = .next t ∧ t.fault = true) :=
  ⟨⟨by decide, _, rfl, rfl⟩, by decide, _, rfl, rfl⟩
theorem witness_ResponsesCarryOnlyTheirField :
    (∃ t, exec (.rdw 1) (block n9 [1]) = .next t ∧ t.fault = true) ∧
    ∃ t, exec .flpa (block n9 [1]) = .next t ∧ t.fault = false ∧
      Instr.opcode .flpa ∉ [0x01, 0x02, 0x03, 0x04] ∧ Instr.opcode .flpa ∉ [0x05, 0x06, 0x07, 0x08] ∧
      Instr.opcode .flpa ∉ [0x09, 0x0A] := ⟨⟨_, rfl, rfl⟩, _, rfl, rfl, by decide⟩
theorem witness_WholeSetMutatorsWriteEveryWord :
    (block n65 [5, 1]).fault = false ∧ (block n65 [5, 1]).words.length = (block n65 [5, 1]).cfg.w ∧
    0 < (block n65 [5, 1]).cfg.w - 1 := by decide
theorem witness_BitMutatorsChangeOneBit :
    (block n65 [5, 1]).fault = false ∧ (block n65 [5, 1]).Masked ∧ 0 < (block n65 [5, 1]).cfg.n ∧
    64 < (block n65 [5, 1]).cfg.n ∧ 0 ≠ 64 ∧ 0 ≠ 64 / (block n65 [5, 1]).cfg.ww := by decide
theorem witness_MutatorsInTheIntegerView :
    (block n65 [5, 1]).fault = false ∧ (block n65 [5, 1]).Masked ∧ 64 < (block n65 [5, 1]).cfg.n := by decide
theorem witness_SingleBitLaw :
    (block n9 [5]).fault = false ∧ (block n9 [5]).words.length = (block n9 [5]).cfg.w ∧ 8 < (block n9 [5]).cfg.n ∧
    0 < (block n9 [5]).cfg.n ∧ 0 ≠ 8 := by decide
theorem witness_FullSetLaw :
    (block n65 [5, 0]).fault = false ∧ (block n65 [5, 0]).words.length = (block n65 [5, 0]).cfg.w ∧
    64 < (block n65 [5, 0]).cfg.n := by decide
theorem witness_FlippingTwiceRestores :
    (block n65 [5, 1]).fault = false ∧ (block n65 [5, 1]).Masked ∧ 64 < (block n65 [5, 1]).cfg.n := by decide
theorem witness_WordReadAndMaskedWordWrite :
    (block n65 [5, 1]).fault = false ∧ (block n65 [5, 1]).Masked ∧ 0 < (block n65 [5, 1]).cfg.w ∧
    1 < (block n65 [5, 1]).cfg.w ∧ 0 ≠ 1 := by decide
/-- The image of P5, its second word altered in transit above bit 35. -/
theorem witness_ImageCopiesABlock :
    (block n100 [0xFFFFFFFFFFFFFFFF, 0x7FFFFFFFF]).Masked ∧ (block n100 [0, 0]).Masked ∧
    (block n100 [0, 0]).cfg.n = (block n100 [0xFFFFFFFFFFFFFFFF, 0x7FFFFFFFF]).cfg.n ∧
    (block n100 [0, 0]).fault = false ∧
    [0xFFFFFFFFFFFFFFFF, (0xFFFFFFF7FFFFFFFF : Word)].length = n100.w ∧
    (∀ j, j < n100.w → [0xFFFFFFFFFFFFFFFF, (0xFFFFFFF7FFFFFFFF : Word)].getD j 0 &&& wMask n100 j
      = (imageWords (block n100 [0xFFFFFFFFFFFFFFFF, 0x7FFFFFFFF])).getD j 0) := by decide
theorem witness_ByteImageRoundTrip :
    ((block n65 [5, 1]).Masked ∧ (block n65 [5, 1]).cfg.byteOrder = .little ∧ 15 < (block n65 [5, 1]).cfg.bytes) ∧
    ((block n65big [5, 1]).Masked ∧ (block n65big [5, 1]).cfg.byteOrder = .big ∧ 1 < (block n65big [5, 1]).cfg.w ∧
      7 < (block n65big [5, 1]).cfg.ww / 8) := by decide
theorem witness_WordArrayRefinesTheIntegerView :
    (block n65 [5, 1]).Masked ∧ Instr.wf (block n65 [5, 1]).cfg (.wrw 1 3) = true ∧
    Instr.wf (block n65 [5, 1]).cfg (.test 127) = true := by decide
theorem witness_EveryRunEnds :
    ∀ m, m ∈ ((block n9 [1]).present ⟨0x240, 0⟩).cmds → m ≠ .reset := by decide
theorem witness_RunSucceedsIffNoResponseFaulted :
    ∃ t, core.run 1 { State.resetFor n9 with cmds := [.command ⟨0x029, 0⟩] } = .next t := ⟨_, rfl⟩
/-- A COUNT is presented to the idle port, and the clock then runs as long as the free latency says. -/
theorem witness_PortTransactionIsOneStep :
    (PortState.resetFor n9 0).inFlight = Option.none ∧ ({ cmdValid := true, cmdOp := 5 } : PortIn).rst = false ∧
    ({ cmdValid := true, cmdOp := 5 } : PortIn).cmdValid = true ∧
    (List.replicate ((PortState.resetFor n9 0).latency (({ cmdValid := true, cmdOp := 5 } : PortIn).command n9) + 1)
        ({} : PortIn)).length
      = (PortState.resetFor n9 0).latency (({ cmdValid := true, cmdOp := 5 } : PortIn).command n9) + 1 ∧
    ∀ j, j ∈ List.replicate
        ((PortState.resetFor n9 0).latency (({ cmdValid := true, cmdOp := 5 } : PortIn).command n9) + 1)
        ({} : PortIn) → j.rst = false :=
  ⟨rfl, rfl, rfl, List.length_replicate, fun _ h => by rw [List.eq_of_mem_replicate h]⟩
theorem witness_ResetAtThePortDropsTheCommand : ({ rst := true, cmdValid := true } : PortIn).rst = true := rfl
theorem witness_AssembledLineNeverTakesIllegalOp :
    assembleLine n9 ['L', 'D', 'I', ' ', '5'] = some (.ldi 5) ∧ (block n9 [0]).cfg = n9 ∧
    (block n9 [0]).fault = false ∧ (block n9 [0]).fcause = .none := by decide

end Sys2Proof.Tests
end

/-! SUPPORT and PROOFS. The statements of 00_scope.md: the sizes that follow from N, the word masks, and the word primitives. -/

section

/-! ## The constants of an instance (00_scope.md R3 to R7) -/

namespace Sys2Proof

theorem Config.ww_eq_two_pow_lw (c : Config) : c.ww = 2 ^ c.lw := by
  obtain ⟨k, hk⟩ : ∃ k, c.ww = 2 ^ k := by
    rcases c.ww_cases with h | h | h | h
    exacts [⟨3, h⟩, ⟨4, h⟩, ⟨5, h⟩, ⟨6, h⟩]
  rw [Config.lw, hk, Nat.log2_two_pow]

/-- W = ceil(N / 64) (00_scope.md R4): N lies in the last of W groups of 64 bits. -/
theorem Config.n_bounds_by_64 (c : Config) : 64 * (c.w - 1) < c.n ∧ c.n ≤ 64 * c.w := by
  have := c.n_pos
  unfold Config.w; omega

/-- PW bits are no more than N needs. -/
theorem Config.two_pow_pw_pred_le (c : Config) : 2 ^ (c.pw - 1) ≤ c.n :=
  Nat.log2_self_le (Nat.ne_of_gt c.n_pos)

theorem Config.w_lt_two_pow_pw (c : Config) : c.w < 2 ^ c.pw := by
  have hw : c.w ≤ c.n := by have := c.n_bounds_by_64; omega
  exact Nat.lt_of_le_of_lt hw c.n_lt_two_pow_pw

/-- A word is a whole number of bytes, so the storage is too. -/
theorem Config.eight_mul_bytes (c : Config) : 8 * c.bytes = c.total := by
  have h8 : 8 ∣ c.ww := by rcases c.ww_cases with h | h | h | h <;> simp [h]
  exact Nat.mul_div_cancel' (h8.mul_left c.w)

/-- The footprint by cases in N (00_scope.md R7). -/
theorem Config.bytes_eq (c : Config) :
    c.bytes = if c.n ≤ 8 then 1 else if c.n ≤ 16 then 2 else if c.n ≤ 32 then 4 else 8 * c.w := by
  have hbytes := c.eight_mul_bytes
  unfold Config.total at hbytes
  by_cases h : c.n ≤ 64
  · rw [Config.w_eq_one h] at hbytes ⊢
    unfold Config.ww at hbytes
    split_ifs at hbytes ⊢ <;> omega
  · rw [Config.ww_eq_of_gt (by omega)] at hbytes
    split_ifs <;> omega

end Sys2Proof

/-! ## The word primitives (00_scope.md R8) -/

namespace Sys2Proof.Machine

theorem lt_ww_of_getLsbD {c : Config} {v : Word} (hv : v &&& ~~~c.ones = 0) {i : Nat} (hi : v.getLsbD i = true) :
    i < c.ww := by
  have := (and_not_eq_zero_iff v c.ones).mp hv i hi
  simpa [Config.getLsbD_ones] using this

theorem popcount_eq_count (c : Config) (v : Word) : popcount c v = Nat.count (fun i => v.getLsbD i = true) c.ww := by
  simp [popcount, Nat.count]

theorem popcount_le_ww (c : Config) (v : Word) : popcount c v ≤ c.ww := by
  rw [popcount_eq_count]
  exact Nat.count_le _

/-- The positions popcount counts are the 1 bits of the whole register, as none lies at or above WW. -/
theorem popcount_eq_card {c : Config} {v : Word} (hv : v &&& ~~~c.ones = 0) :
    popcount c v = (Finset.univ.filter fun i : Fin 64 => v.getLsbD i = true).card := by
  rw [popcount_eq_count, Nat.count_eq_card_filter_range, ← Finset.card_map Fin.valEmbedding]
  congr 1
  ext i
  simp only [Finset.mem_filter, Finset.mem_range, Finset.mem_map, Finset.mem_univ, true_and, Fin.valEmbedding_apply]
  constructor
  · rintro ⟨-, hi⟩
    exact ⟨⟨i, BitVec.lt_of_getLsbD hi⟩, hi, rfl⟩
  · rintro ⟨k, hk, rfl⟩
    exact ⟨lt_ww_of_getLsbD hv hk, hk⟩

/-- A word with no 1 bit below WW has ctz WW. -/
theorem ctz_eq_ww {c : Config} {v : Word} (h : ∀ i, i < c.ww → v.getLsbD i = false) : ctz c v = c.ww := by
  have hnone : (List.range c.ww).find? (fun i => v.getLsbD i) = none := by simpa using h
  rw [ctz, hnone, Option.getD_none]

/-- A word with a 1 bit below WW has its lowest one at ctz. -/
theorem ctz_spec {c : Config} {v : Word} {k : Nat} (hk : k < c.ww) (hv : v.getLsbD k = true) :
    ctz c v < c.ww ∧ v.getLsbD (ctz c v) = true ∧ ∀ i, i < ctz c v → v.getLsbD i = false := by
  cases hf : (List.range c.ww).find? (fun i => v.getLsbD i) with
  | none =>
    have := List.find?_eq_none.mp hf k (List.mem_range.mpr hk)
    exact absurd hv this
  | some i =>
    rw [ctz, hf, Option.getD_some]
    exact find_range_eq_some_iff.mp hf

/-- A WW-bit word with a 0 bit below WW has its lowest one at cto. -/
theorem cto_spec {c : Config} {v : Word} {k : Nat} (hk : k < c.ww) (hv : v.getLsbD k = false) :
    cto c v < c.ww ∧ v.getLsbD (cto c v) = false ∧ ∀ i, i < cto c v → v.getLsbD i = true := by
  unfold cto
  obtain ⟨hlt, hbit, hbelow⟩ := ctz_spec (v := notWord c v) hk (by simp [getLsbD_notWord, hk, hv])
  refine ⟨hlt, by simpa [getLsbD_notWord, hlt] using hbit, fun i hi => ?_⟩
  simpa [getLsbD_notWord, Nat.lt_trans hi hlt] using hbelow i hi

theorem cto_eq_ww {c : Config} {v : Word} (h : ∀ i, i < c.ww → v.getLsbD i = true) : cto c v = c.ww :=
  ctz_eq_ww fun i hi => by simp [getLsbD_notWord, h i hi]

/-- A nonzero WW-bit word has a 1 bit below WW. -/
theorem exists_getLsbD_of_ne_zero {c : Config} {v : Word} (hv : v &&& ~~~c.ones = 0) (h : v ≠ 0) :
    ∃ k, k < c.ww ∧ v.getLsbD k = true := by
  by_contra! hno
  refine h (BitVec.eq_of_getLsbD_eq fun i _ => ?_)
  rw [BitVec.ofNat_eq_ofNat, BitVec.getLsbD_zero, Bool.eq_false_iff]
  exact fun hi => hno i (lt_ww_of_getLsbD hv hi) hi

/-- A WW-bit word that is not ONES has a 0 bit below WW. -/
theorem exists_not_getLsbD_of_ne_ones {c : Config} {v : Word} (hv : v &&& ~~~c.ones = 0) (h : v ≠ c.ones) :
    ∃ k, k < c.ww ∧ v.getLsbD k = false := by
  by_contra! hno
  refine h (BitVec.eq_of_getLsbD_eq fun i _ => ?_)
  rw [Config.getLsbD_ones, Bool.eq_iff_iff, decide_eq_true_eq]
  exact ⟨lt_ww_of_getLsbD hv, fun hi => Bool.eq_true_of_not_eq_false (hno i hi)⟩

/-! ## The statements -/

/-- Settles O2: the mask's bits are those `getLsbD_wMask` gives, as a Boolean. -/
theorem wordMaskKeepsExactlyTheLogicalBits : Obligations.WordMaskKeepsExactlyTheLogicalBits := by
  intro c j k hj
  simp [getLsbD_wMask c hj]

/-- Settles O3: a word that is not 0 (not ONES) has a 1 (0) bit below WW, and the scan finds the lowest. -/
theorem wordPrimitivesCountAndFindBits : Obligations.WordPrimitivesCountAndFindBits := by
  intro c v hv
  refine ⟨⟨popcount_eq_card hv, popcount_le_ww c v⟩, fun h => ?_, fun h => ?_, ?_, ?_⟩
  · obtain ⟨k, hk, hbit⟩ := exists_getLsbD_of_ne_zero hv h
    exact ctz_spec hk hbit
  · obtain ⟨k, hk, hbit⟩ := exists_not_getLsbD_of_ne_ones hv h
    exact cto_spec hk hbit
  · exact ctz_eq_ww fun i _ => BitVec.getLsbD_zero
  · exact cto_eq_ww fun i hi => by simp [Config.getLsbD_ones, hi]

/-- Settles O1, one lemma about the instance's constants per clause. -/
theorem storageSizesFollowFromN : Obligations.StorageSizesFollowFromN := by
  intro c
  obtain ⟨hlow, hhigh⟩ := c.n_bounds_by_64
  exact ⟨by simpa using c.ww_cases, c.ww_eq_two_pow_lw, c.n_le_total, c.total_eq_iff,
    Config.w_eq_one, fun h => ⟨Config.ww_eq_of_gt h, Config.two_le_w h⟩, hlow, hhigh,
    c.two_pow_pw_pred_le, c.n_lt_two_pow_pw, c.w_lt_two_pow_pw, rfl, c.eight_mul_bytes, c.bytes_eq⟩

end Sys2Proof.Machine

end

/-! SUPPORT and PROOFS. The statements of 10_state.md: the integer view, what a command depends on, the reset state, STATUS. -/

section

/-! ## The integer view (10_state.md R24) -/

namespace Sys2Proof.Machine

/-- V is the weighted sum of the words, lowest word first. -/
theorem valueOf_eq_sum (ww : Nat) (ws : List Word) :
    valueOf ww ws = ((List.range ws.length).map fun j => (ws.getD j 0).toNat * 2 ^ (j * ww)).sum := by
  induction ws with
  | nil => rfl
  | cons v vs ih =>
    have hshift : ∀ j, (vs.getD j 0).toNat * 2 ^ ((j + 1) * ww) = 2 ^ ww * ((vs.getD j 0).toNat * 2 ^ (j * ww)) := by
      intro j
      ring
    rw [valueOf, ih, List.length_cons, List.range_succ_eq_map, List.map_cons, List.sum_cons, List.map_map]
    simp only [Function.comp_def, List.getD_cons_zero, List.getD_cons_succ, hshift, List.sum_map_mul_left,
      Nat.zero_mul, Nat.pow_zero, Nat.mul_one]

theorem toNat_lt_of_within {c : Config} {v : Word} (hv : v &&& ~~~c.ones = 0) : v.toNat < 2 ^ c.ww := by
  refine Nat.lt_pow_two_of_testBit _ fun i hi => Bool.eq_false_iff.mpr fun hbit => ?_
  exact absurd (lt_ww_of_getLsbD hv hbit) (Nat.not_lt.mpr hi)

/-- A top word within its mask is all the masking invariant adds to a word array within WW bits (10_state.md R22). -/
theorem masked_iff_topWord {s : State} (hl : s.words.length = s.cfg.w)
    (hv : ∀ j, j < s.cfg.w → memRead s j &&& ~~~s.cfg.ones = 0) :
    s.Masked ↔ memRead s (s.cfg.w - 1) &&& ~~~s.cfg.msbMask = 0 := by
  have htop : wMask s.cfg (s.cfg.w - 1) = s.cfg.msbMask := if_pos rfl
  constructor
  · rintro ⟨-, hm⟩
    rw [← htop]
    exact hm _ (Nat.sub_lt s.cfg.w_pos Nat.one_pos)
  · refine fun h => ⟨hl, fun j hj => ?_⟩
    by_cases e : j = s.cfg.w - 1
    · rwa [e, htop]
    · rw [wMask, if_neg e]
      exact hv j hj

/-- `testBit_value` for word arrays that are within WW bits but whose top word need not be masked. -/
theorem testBit_value_of_within {s : State} (hl : s.words.length = s.cfg.w)
    (hv : ∀ j, j < s.cfg.w → memRead s j &&& ~~~s.cfg.ones = 0) (p : Nat) : s.value.testBit p = s.bit p := by
  rw [bit_eq_getLsbD]
  refine testBit_valueOf s.cfg.ww_pos (fun v hmem => toNat_lt_of_within ?_) p
  obtain ⟨j, hj, rfl⟩ := List.getElem_of_mem hmem
  simpa [memRead, hj] using hv j (hl ▸ hj)

theorem value_lt_of_masked {s : State} (h : s.Masked) : s.value < 2 ^ s.cfg.n :=
  Nat.lt_pow_two_of_testBit _ fun p hp => by rw [testBit_value h, bit_of_ge h hp]

/-- The masking invariant is V < 2^N: a bit of a word is the bit of V at its storage position. -/
theorem masked_iff_value_lt {s : State} (hl : s.words.length = s.cfg.w)
    (hv : ∀ j, j < s.cfg.w → memRead s j &&& ~~~s.cfg.ones = 0) : s.Masked ↔ s.value < 2 ^ s.cfg.n := by
  refine ⟨value_lt_of_masked, fun hlt => (masked_iff s).mpr ⟨hl, fun j hj i hi => ?_⟩⟩
  have hww : i < s.cfg.ww := lt_ww_of_getLsbD (hv j hj) hi
  have hbit : s.value.testBit (j * s.cfg.ww + i) = true := by
    rw [testBit_value_of_within hl hv, bit_at_word s hww, hi]
  exact ⟨hww, (Nat.pow_lt_pow_iff_right Nat.one_lt_two).mp (Nat.lt_of_le_of_lt (Nat.ge_two_pow_of_testBit hbit) hlt)⟩

/-- The integer view loses nothing of a masked word array. -/
theorem words_eq_of_value {s t : State} (hs : s.Masked) (ht : t.Masked) (hc : s.cfg = t.cfg)
    (h : s.value = t.value) : s.words = t.words :=
  words_eq_of_bits hs ht hc fun p => by rw [← testBit_value hs, h, testBit_value ht]

/-- A state whose word j is the j-th slice of WW bits of `v`, cut to N bits. -/
def stateOfValue (c : Config) (v : Nat) : State :=
  memWriteAll (State.resetFor c) fun j => BitVec.ofNat 64 (v >>> (j * c.ww))

theorem stateOfValue_masked (c : Config) (v : Nat) : (stateOfValue c v).Masked := memWriteAll_masked _ _

theorem bit_stateOfValue {c : Config} (v : Nat) {p : Nat} (hp : p < c.n) :
    (stateOfValue c v).bit p = v.testBit p := by
  have hk : p % c.ww < 64 := Nat.lt_of_lt_of_le (Nat.mod_lt p c.ww_pos) c.ww_le
  rw [stateOfValue, bit_memWriteAll _ _ hp, resetFor_cfg, BitVec.getLsbD_ofNat, Nat.testBit_shiftRight,
    Nat.div_add_mod']
  simp [hk]

/-- Every integer below 2^N is the integer view of a masked state. -/
theorem value_stateOfValue {c : Config} {v : Nat} (hv : v < 2 ^ c.n) : (stateOfValue c v).value = v := by
  have hm := stateOfValue_masked c v
  refine value_eq_of_bits hm fun p => ?_
  by_cases hp : p < c.n
  · exact bit_stateOfValue v hp
  · have hnp : c.n ≤ p := Nat.le_of_not_lt hp
    rw [bit_of_ge hm hnp, Nat.testBit_lt_two_pow (Nat.lt_of_lt_of_le hv (Nat.pow_le_pow_right Nat.two_pos hnp))]

/-! ## What a command's effect depends on (10_state.md R30) -/

/-- The same block (the instance and the state of 10_state.md R20) with another host: other moves to come, other responses given. -/
def State.withHost (s : State) (cmds : List HostMove) (rsps : List Response) : State :=
  { s with cmds := cmds, rsps := rsps }

/-- States that agree on the instance and on the state of R20 are one block with two hosts. -/
theorem eq_withHost {s s' : State} (hcfg : s.cfg = s'.cfg) (hwords : s.words = s'.words) (hfault : s.fault = s'.fault)
    (hfcause : s.fcause = s'.fcause) : s' = s.withHost s'.cmds s'.rsps := by
  rw [State.withHost, hcfg, hwords, hfault, hfcause]

/-- `t` follows `s` and `t'` follows `s'` with one and the same response, and `t` and `t'` are one block with the two hosts of
`s` and `s'`. -/
def SameAnswer (s s' t t' : State) : Prop :=
  ∃ r, t.cmds = s.cmds ∧ t.rsps = s.rsps ++ [r] ∧ t' = t.withHost s'.cmds (s'.rsps ++ [r])

section
variable {s b b' : State} {cmds : List HostMove} {rsps : List Response}

theorem respond_sameAnswer {u : State} (r : Response) (hm : u.cmds = s.cmds) (hr : u.rsps = s.rsps) :
    SameAnswer s (s.withHost cmds rsps) (respond u r) (respond (u.withHost cmds rsps) r) :=
  ⟨r, hm, by rw [respond_rsps, hr], rfl⟩

theorem takeFault_sameAnswer (cause : FCause) :
    SameAnswer s (s.withHost cmds rsps) (takeFault s cause) (takeFault (s.withHost cmds rsps) cause) :=
  ⟨_, rfl, rfl, rfl⟩

theorem unlessHalted_sameAnswer (h : SameAnswer s (s.withHost cmds rsps) b b') :
    SameAnswer s (s.withHost cmds rsps) (unlessHalted s b) (unlessHalted (s.withHost cmds rsps) b') := by
  cases hf : s.fault
  · rwa [unlessHalted_of_live hf, unlessHalted_of_live (s := s.withHost cmds rsps) hf]
  · rw [unlessHalted_of_halted hf, unlessHalted_of_halted (s := s.withHost cmds rsps) hf]
    exact respond_sameAnswer _ rfl rfl

theorem atBit_sameAnswer {f f' : Nat → Nat → State} (pos : Nat)
    (h : ∀ j k, SameAnswer s (s.withHost cmds rsps) (f j k) (f' j k)) :
    SameAnswer s (s.withHost cmds rsps) (atBit s pos f) (atBit (s.withHost cmds rsps) pos f') := by
  by_cases hp : pos < s.cfg.n
  · rw [atBit_of_lt hp, atBit_of_lt (s := s.withHost cmds rsps) hp]
    exact h _ _
  · have hge : s.cfg.n ≤ pos := Nat.le_of_not_lt hp
    rw [atBit_of_ge hge, atBit_of_ge (s := s.withHost cmds rsps) hge]
    exact takeFault_sameAnswer _

theorem atWord_sameAnswer (idx : Nat) (h : SameAnswer s (s.withHost cmds rsps) b b') :
    SameAnswer s (s.withHost cmds rsps) (atWord s idx b) (atWord (s.withHost cmds rsps) idx b') := by
  by_cases hi : idx < s.cfg.w
  · rwa [atWord_of_lt hi, atWord_of_lt (s := s.withHost cmds rsps) hi]
  · have hge : s.cfg.w ≤ idx := Nat.le_of_not_lt hi
    rw [atWord_of_ge hge, atWord_of_ge (s := s.withHost cmds rsps) hge]
    exact takeFault_sameAnswer _

theorem ifExists_sameAnswer (e : Bool) (h : SameAnswer s (s.withHost cmds rsps) b b') :
    SameAnswer s (s.withHost cmds rsps) (ifExists s e b) (ifExists (s.withHost cmds rsps) e b') := by
  cases e
  · exact takeFault_sameAnswer _
  · exact h

end

/-- No command reads what belongs to the host: with another host it does the same to the block and answers the same. -/
theorem exec_withHost (i : Instr) (s : State) (cmds : List HostMove) (rsps : List Response) :
    ∃ t t', exec i s = .next t ∧ exec i (s.withHost cmds rsps) = .next t' ∧ SameAnswer s (s.withHost cmds rsps) t t' := by
  cases i
  case test p => exact ⟨_, _, rfl, rfl, unlessHalted_sameAnswer (atBit_sameAnswer p fun _ _ => respond_sameAnswer _ rfl rfl)⟩
  case rstb p => exact ⟨_, _, rfl, rfl, unlessHalted_sameAnswer (atBit_sameAnswer p fun _ _ => respond_sameAnswer _ rfl rfl)⟩
  case flpb p => exact ⟨_, _, rfl, rfl, unlessHalted_sameAnswer (atBit_sameAnswer p fun _ _ => respond_sameAnswer _ rfl rfl)⟩
  case setb p v =>
    refine ⟨_, _, rfl, rfl, unlessHalted_sameAnswer (atBit_sameAnswer p fun _ _ => ?_)⟩
    cases v <;> exact respond_sameAnswer _ rfl rfl
  case rdw idx => exact ⟨_, _, rfl, rfl, unlessHalted_sameAnswer (atWord_sameAnswer idx (respond_sameAnswer _ rfl rfl))⟩
  case wrw idx _ => exact ⟨_, _, rfl, rfl, unlessHalted_sameAnswer (atWord_sameAnswer idx (respond_sameAnswer _ rfl rfl))⟩
  case ldi _ => exact ⟨_, _, rfl, rfl, unlessHalted_sameAnswer (ifExists_sameAnswer _ (respond_sameAnswer _ rfl rfl))⟩
  case lda _ => exact ⟨_, _, rfl, rfl, unlessHalted_sameAnswer (ifExists_sameAnswer _ (respond_sameAnswer _ rfl rfl))⟩
  all_goals exact ⟨_, _, rfl, rfl, unlessHalted_sameAnswer (respond_sameAnswer _ rfl rfl)⟩

/-! ## The reset state (10_state.md R31) -/

theorem bit_resetFor (c : Config) (p : Nat) : (State.resetFor c).bit p = false := by
  rw [bit_eq_getLsbD, memRead_resetFor]
  exact BitVec.getLsbD_zero

theorem value_resetFor (c : Config) : (State.resetFor c).value = 0 :=
  value_eq_of_bits (resetFor_masked c) fun p => by rw [bit_resetFor, Nat.zero_testBit]

theorem status_resetFor (c : Config) : (State.resetFor c).status = 0 := by
  rw [State.status, State.stsCause, State.stsFault, resetFor_fcause, resetFor_fault]
  decide

/-- With no response given and FAULT = 0, every clause of the invariant about responses and causes is met. -/
theorem resetFor_inv (c : Config) : (State.resetFor c).Inv := by
  refine ⟨resetFor_masked c, ?_, ?_, ?_⟩
  · simp [State.CauseAgrees]
  · simp [State.RunAgrees]
  · simp

/-! ## STATUS (10_state.md R27) -/

/-- Bit 0 of STATUS is FAULT. -/
theorem status_getLsbD_zero (s : State) : s.status.getLsbD 0 = s.fault := by
  rw [State.status, BitVec.getLsbD_append]
  simp [State.stsFault]

/-- The bits of STATUS above bit 0 are FCAUSE. -/
theorem status_getLsbD_succ (s : State) (b : Nat) : s.status.getLsbD (b + 1) = s.stsCause.getLsbD b := by
  rw [State.status, BitVec.getLsbD_append]
  simp

/-- FAULT = 1 exactly where FCAUSE != 0 (10_state.md R26) leaves one value of STATUS for each of the three causes. -/
theorem status_legal {s : State} (h : s.CauseAgrees) : s.status ∈ [0b000#3, 0b011#3, 0b101#3] := by
  have hfault : s.fault = decide (s.fcause ≠ .none) := by
    rw [Bool.eq_iff_iff, decide_eq_true_eq]
    exact h
  rw [State.status, State.stsCause, State.stsFault, hfault]
  cases s.fcause <;> decide

/-! ## The statements -/

/-- Settles O6: words within WW bits have the bits of V, so masking bounds V; the slices of V give the state back. -/
theorem integerViewIsTheWordArray : Obligations.IntegerViewIsTheWordArray := by
  refine ⟨fun s hl hv => ⟨?_, fun p _ => (testBit_value_of_within hl hv p).symm, ?_⟩,
    fun s t => words_eq_of_value, fun c v hv => ⟨stateOfValue c v, rfl, stateOfValue_masked c v, value_stateOfValue hv⟩⟩
  · rw [State.value, valueOf_eq_sum, hl]
    rfl
  · rw [← masked_iff_topWord hl hv, masked_iff_value_lt hl hv]

/-- Settles O23: the two states are one block with two hosts. -/
theorem effectDependsOnlyOnTheBlocksState : Obligations.EffectDependsOnlyOnTheBlocksState := by
  intro i s s' hcfg hwords hfault hfcause
  obtain ⟨t, t', ht, ht', r, hcmds, hrsps, rfl⟩ := exec_withHost i s s'.cmds s'.rsps
  rw [← eq_withHost hcfg hwords hfault hfcause] at ht'
  exact ⟨t, _, r, ht, ht', rfl, rfl, rfl, hrsps, rfl, hcmds, rfl⟩

/-- Settles O7: all words read 0, hence all bits, hence V. -/
theorem resetStateIsDefaultConstruction : Obligations.ResetStateIsDefaultConstruction :=
  ⟨fun c => ⟨rfl, List.length_replicate, memRead_resetFor c, rfl, rfl, value_resetFor c, bit_resetFor c,
    resetFor_masked c, status_resetFor c, rfl, rfl⟩, rfl⟩

/-- Settles O9: the reset words are masked, FAULT and FCAUSE agree on 0, and no response has been given. -/
theorem resetStateMeetsTheInvariant : Obligations.ResetStateMeetsTheInvariant := resetFor_inv

/-- Settles O28: the two halves of the concatenation, and one value per cause. -/
theorem statusHasThreeLegalValues : Obligations.StatusHasThreeLegalValues := by
  intro s h
  exact ⟨status_getLsbD_zero s, fun b _ => status_getLsbD_succ s b, status_legal h⟩

end Sys2Proof.Machine

end

/-! SUPPORT and PROOFS. The statements of 20_memory.md: the bit indexer, the masked word writer, and the byte image. -/

section

/-! ## Words as bytes (20_memory.md R50) -/

namespace Sys2Proof

/-- A word is a whole number of bytes. -/
theorem Config.eight_mul_bytesPerWord (c : Config) : 8 * (c.ww / 8) = c.ww := by
  rcases c.ww_cases with h | h | h | h <;> omega

theorem Config.bytes_eq_mul (c : Config) : c.bytes = c.w * (c.ww / 8) :=
  Nat.mul_div_assoc c.w (Dvd.intro _ c.eight_mul_bytesPerWord)

end Sys2Proof

namespace Sys2Proof.Machine

/-! ## The bit indexer (20_memory.md R41) -/

/-- Where R != 0, a logical bit in the top word is one of its low R bits. -/
theorem idxOf_snd_lt_r {c : Config} {p : Nat} (hp : p < c.n) (htop : (idxOf c p).1 = c.w - 1) (hr : c.r ≠ 0) :
    (idxOf c p).2 < c.r := by
  have hn := Config.n_eq_of_r hr
  have hpos := idxOf_eq c p
  rw [htop] at hpos
  omega

/-! ## The masked word writer (20_memory.md R44, R45) -/

theorem wMask_top (c : Config) : wMask c (c.w - 1) = c.msbMask := if_pos rfl

theorem wMask_below_top {c : Config} {j : Nat} (h : j ≠ c.w - 1) : wMask c j = c.ones := if_neg h

/-- Where R = 0 the top word has no masked-off bit. -/
theorem msbMask_of_r_zero {c : Config} (h : c.r = 0) : c.msbMask = c.ones := if_pos (c.total_eq_iff.mpr h)

/-- Where R != 0 the mask of the top word keeps the low R bits. -/
theorem toNat_and_msbMask {c : Config} (h : c.r ≠ 0) (v : Word) : (v &&& c.msbMask).toNat = v.toNat % 2 ^ c.r := by
  have hmask : c.msbMask.toNat = 2 ^ c.r - 1 := by
    rw [Config.msbMask, if_neg (mt c.total_eq_iff.mp h), BitVec.toNat_ofNat]
    refine Nat.mod_eq_of_lt (Nat.lt_of_lt_of_le (Nat.sub_lt (Nat.two_pow_pos _) Nat.one_pos) ?_)
    exact Nat.pow_le_pow_right Nat.two_pos (Nat.le_of_lt (Nat.lt_of_lt_of_le c.r_lt c.ww_le))
  rw [BitVec.toNat_and, hmask, Nat.and_two_pow_sub_one_eq_mod]

/-- The later of two writes to one word is the one that stands. -/
theorem rawWrite_rawWrite (s : State) (j : Nat) (v v' : Word) : rawWrite (rawWrite s j v) j v' = rawWrite s j v' := by
  simp [rawWrite]

/-! ## The bytes of an image (20_memory.md R50) -/

theorem byteIndex_of_little {c : Config} (h : c.byteOrder = .little) (b : Nat) : byteIndex c b = b := by
  rw [byteIndex, h]

theorem byteIndex_of_big {c : Config} (h : c.byteOrder = .big) (b : Nat) : byteIndex c b = c.ww / 8 - 1 - b := by
  rw [byteIndex, h]

theorem byteIndex_lt {c : Config} {b : Nat} (h : b < c.ww / 8) : byteIndex c b < c.ww / 8 := by
  cases ho : c.byteOrder
  · rwa [byteIndex_of_little ho]
  · rw [byteIndex_of_big ho]
    omega

/-- The byte order reverses the slices of a word or leaves them, so twice gives them back. -/
theorem byteIndex_byteIndex {c : Config} {b : Nat} (h : b < c.ww / 8) : byteIndex c (byteIndex c b) = b := by
  cases ho : c.byteOrder
  · rw [byteIndex_of_little ho, byteIndex_of_little ho]
  · rw [byteIndex_of_big ho, byteIndex_of_big ho]
    omega

theorem getLsbD_byteSlice (v : Word) (b t : Nat) :
    (byteSlice v b).getLsbD t = (decide (t < 8) && v.getLsbD (8 * b + t)) := by
  rw [byteSlice, BitVec.getLsbD_setWidth, BitVec.getLsbD_ushiftRight]

theorem toNat_byteSlice (v : Word) (b : Nat) : (byteSlice v b).toNat = v.toNat / 2 ^ (8 * b) % 256 := by
  rw [byteSlice, BitVec.toNat_setWidth, BitVec.toNat_ushiftRight, Nat.shiftRight_eq_div_pow]

/-- Where every block has `m` items, item `b` of block `j` is item `j * m + b` of the whole. -/
theorem getD_flatMap_of_length {α β : Type} {f : α → List β} {m : Nat} (hf : ∀ x, (f x).length = m) (l : List α)
    {j b : Nat} (hj : j < l.length) (hb : b < m) (d : β) : (l.flatMap f).getD (j * m + b) d = (f l[j]).getD b d := by
  induction l generalizing j with
  | nil => exact absurd hj (Nat.not_lt_zero j)
  | cons x xs ih =>
    rw [List.flatMap_cons]
    cases j with
    | zero =>
      rw [Nat.zero_mul, Nat.zero_add, List.getD_append _ _ _ _ (by rwa [hf])]
      rfl
    | succ j =>
      have hskip : (j + 1) * m + b = (f x).length + (j * m + b) := by rw [hf]; ring
      rw [hskip, List.getD_append_right _ _ _ _ (Nat.le_add_right ..), Nat.add_sub_cancel_left]
      exact ih (Nat.lt_of_succ_lt_succ hj)

theorem length_wordBytes (c : Config) (v : Word) : (wordBytes c v).length = c.ww / 8 := by
  rw [wordBytes, List.length_map, List.length_range]

theorem getD_wordBytes (c : Config) (v : Word) {b : Nat} (hb : b < c.ww / 8) :
    (wordBytes c v).getD b 0 = byteSlice v (byteIndex c b) := by
  simp [wordBytes, hb]

theorem length_imageBytes (s : State) : (imageBytes s).length = s.cfg.bytes := by
  simp [imageBytes, imageWords, length_wordBytes, List.length_flatMap, Config.bytes_eq_mul, Function.comp_def]

/-- The layout of R50 for both byte orders. -/
theorem getD_imageBytes (s : State) {j b : Nat} (hj : j < s.cfg.w) (hb : b < s.cfg.ww / 8) :
    (imageBytes s).getD (j * (s.cfg.ww / 8) + b) 0 = byteSlice (memRead s j) (byteIndex s.cfg b) := by
  have hlen : j < (imageWords s).length := by simpa [imageWords] using hj
  rw [imageBytes, getD_flatMap_of_length (length_wordBytes s.cfg) _ hlen hb, getD_wordBytes _ _ hb]
  simp [imageWords]

/-- A word's slice b is the slice of V at the word's position (10_state.md R24). -/
theorem toNat_byteSlice_memRead {s : State} (h : s.Masked) (j : Nat) {b : Nat} (hb : b < s.cfg.ww / 8) :
    (byteSlice (memRead s j) b).toNat = s.value / 2 ^ (8 * (j * (s.cfg.ww / 8) + b)) % 256 := by
  refine Nat.eq_of_testBit_eq fun t => ?_
  have hpow : (256 : Nat) = 2 ^ 8 := rfl
  rw [BitVec.testBit_toNat, getLsbD_byteSlice, hpow, Nat.testBit_mod_two_pow, Nat.testBit_div_two_pow]
  by_cases ht : t < 8
  · have hww := s.cfg.eight_mul_bytesPerWord
    have hpos : t + 8 * (j * (s.cfg.ww / 8) + b) = j * s.cfg.ww + (8 * b + t) := by
      calc t + 8 * (j * (s.cfg.ww / 8) + b) = j * (8 * (s.cfg.ww / 8)) + (8 * b + t) := by ring
        _ = j * s.cfg.ww + (8 * b + t) := by rw [hww]
    rw [hpos, testBit_value h, bit_at_word s (by omega)]
  · simp [ht]

/-! ## Reading a byte image back (20_memory.md R50, R58) -/

theorem imageWords_eq_words {s : State} (h : s.words.length = s.cfg.w) : imageWords s = s.words := by
  refine List.ext_getElem (by simp [imageWords, h]) fun j _ hj => ?_
  simp [imageWords, memRead, hj]

/-- A bit of an or over a list is that bit of some member. -/
theorem getLsbD_foldl_or (f : Nat → Word) (l : List Nat) (a : Word) (i : Nat) :
    (l.foldl (fun acc b => acc ||| f b) a).getLsbD i = (a.getLsbD i || l.any fun b => (f b).getLsbD i) := by
  induction l generalizing a with
  | nil => simp
  | cons b bs ih => rw [List.foldl_cons, ih, BitVec.getLsbD_or, List.any_cons, Bool.or_assoc]

/-- Slice b, put back where it was cut, has the bits of the word at positions 8b to 8b+7. -/
theorem getLsbD_byteSlice_shiftLeft (v : Word) (b i : Nat) :
    ((byteSlice v b).setWidth 64 <<< (8 * b)).getLsbD i = (decide (i / 8 = b) && v.getLsbD i) := by
  rw [BitVec.getLsbD_shiftLeft, BitVec.getLsbD_setWidth, getLsbD_byteSlice]
  by_cases hb : i / 8 = b
  · have hpos : 8 * b + (i - 8 * b) = i := by omega
    cases hv : v.getLsbD i
    · simp [hpos, hv]
    · have hi : i < 64 := BitVec.lt_of_getLsbD hv
      have hin : ¬ i < 8 * b ∧ i - 8 * b < 8 ∧ i - 8 * b < 64 := by omega
      simp [hpos, hv, hb, hi, hin]
  · have hout : i < 8 * b ∨ ¬ i - 8 * b < 8 := by omega
    rcases hout with h | h <;> simp [h, hb]

/-- The bytes of a word read back as the word: its bit i comes from the byte that holds slice i / 8, and from no other. -/
theorem wordAt_eq {c : Config} {bs : List Byte} {at_ : Nat} {v : Word} (hv : v &&& ~~~c.ones = 0)
    (hbs : ∀ b, b < c.ww / 8 → bs.getD (at_ + b) 0 = byteSlice v (byteIndex c b)) : wordAt c bs at_ = v := by
  refine BitVec.eq_of_getLsbD_eq fun i _ => ?_
  rw [wordAt, getLsbD_foldl_or, BitVec.ofNat_eq_ofNat, BitVec.getLsbD_zero, Bool.false_or, Bool.eq_iff_iff, List.any_eq_true]
  constructor
  · rintro ⟨b, hb, hbit⟩
    rw [hbs b (List.mem_range.mp hb), getLsbD_byteSlice_shiftLeft, Bool.and_eq_true] at hbit
    exact hbit.2
  · intro hbit
    have hlt : i / 8 < c.ww / 8 := by
      have := lt_ww_of_getLsbD hv hbit
      have := c.eight_mul_bytesPerWord
      omega
    refine ⟨byteIndex c (i / 8), List.mem_range.mpr (byteIndex_lt hlt), ?_⟩
    rw [hbs _ (byteIndex_lt hlt), byteIndex_byteIndex hlt, getLsbD_byteSlice_shiftLeft, hbit]
    simp

theorem wordsOfBytes_imageBytes {s : State} (h : s.Masked) : wordsOfBytes s.cfg (imageBytes s) = s.words := by
  obtain ⟨hlen, hmask⟩ := h
  rw [← imageWords_eq_words hlen, wordsOfBytes, imageWords]
  refine List.map_congr_left fun j hj => ?_
  have hj : j < s.cfg.w := List.mem_range.mp hj
  exact wordAt_eq (ones_of_wMask (hmask j hj)) fun b hb => getD_imageBytes s hj hb

/-! ## The statements -/

/-- Settles O4: the indexer divides by WW = 2^LW, and a position below N lies in the array and under the top mask. -/
theorem indexerAddressesALogicalBit : Obligations.IndexerAddressesALogicalBit := by
  intro c pos j k hpos hidx
  obtain ⟨rfl, rfl⟩ : (idxOf c pos).1 = j ∧ (idxOf c pos).2 = k := by simp [hidx]
  refine ⟨rfl, rfl, ?_, ?_, Nat.le_sub_one_of_lt (idxOf_lt hpos), Nat.le_sub_one_of_lt (idxOf_snd_lt c pos),
    idxOf_snd_lt_r hpos⟩
  · rw [Nat.shiftRight_eq_div_pow, ← c.ww_eq_two_pow_lw]
    rfl
  · rw [← c.ww_eq_two_pow_lw]
    rfl

/-- Settles O5: every clause about the stored value is `v & WMASK(j)` with the mask of that word. -/
theorem maskedWriterStoresUnderTheMask : Obligations.MaskedWriterStoresUnderTheMask := by
  intro s j v hlen hj
  rw [memRead_memWrite_same s v (hlen ▸ hj), memRead_rawWrite_same s v (hlen ▸ hj), rawWrite_rawWrite]
  refine ⟨rfl, by simpa using hlen, rfl, fun k => memRead_memWrite_other s v, fun hbelow hv => ?_, ?_, ?_, ?_, rfl⟩
  · rw [wMask_below_top hbelow, and_eq_self_of_masked hv]
  all_goals rintro rfl; rw [wMask_top]
  · intro hr hv
    rw [msbMask_of_r_zero hr, and_eq_self_of_masked hv]
  · exact fun hr => toNat_and_msbMask hr v
  · exact masked_and v _

/-- Settles O49: the layout by words gives the layout by slices of V and the way back. -/
theorem byteImageRoundTrip : Obligations.ByteImageRoundTrip := by
  intro s h
  refine ⟨length_imageBytes s, wordsOfBytes_imageBytes h, fun hlittle i hi => ?_, fun j b hj hb => ?_⟩
  · rw [Config.bytes_eq_mul] at hi
    have hpos : 0 < s.cfg.ww / 8 := Nat.pos_of_lt_mul_left hi
    have hb := Nat.mod_lt i hpos
    rw [← Nat.div_add_mod' i (s.cfg.ww / 8), getD_imageBytes s (Nat.div_lt_of_lt_mul (Nat.mul_comm .. ▸ hi)) hb,
      byteIndex_of_little hlittle, toNat_byteSlice_memRead h _ hb]
  · rw [getD_imageBytes s hj hb, toNat_byteSlice]
    split
    · next ho => rw [byteIndex_of_little ho]
    · next ho =>
      have hww := s.cfg.eight_mul_bytesPerWord
      have hslice : 8 * (s.cfg.ww / 8 - 1 - b) = s.cfg.ww - 8 * b - 8 := by omega
      rw [byteIndex_of_big ho, hslice]

end Sys2Proof.Machine

end

/-! SUPPORT and PROOFS. The statements of 30_encoding.md: the packed command, the data bus, what the decoder reads, the step
that runs a command, what a command answers, the port transaction, and the assembler's operands. -/

section

namespace Sys2Proof

/-! ## The fields of the packed command word (30_encoding.md R62) -/

theorem packWord_eq (c : Config) (op : Nat) (val : Bool) (pos : Nat) :
    packWord c op val pos = 2 ^ c.pw * (2 * op + val.toNat) + pos := by
  unfold packWord
  ring

/-- What stands above `pos` is `{op, val}`. -/
theorem packWord_div {c : Config} {pos : Nat} (hp : pos < 2 ^ c.pw) (op : Nat) (val : Bool) :
    packWord c op val pos / 2 ^ c.pw = 2 * op + val.toNat := by
  rw [packWord_eq, Nat.mul_add_div (Nat.two_pow_pos _), Nat.div_eq_of_lt hp, Nat.add_zero]

theorem pos_packWord {c : Config} {pos : Nat} (hp : pos < 2 ^ c.pw) (op : Nat) (val : Bool) (wdata : Nat) :
    Command.pos c ⟨packWord c op val pos, wdata⟩ = pos := by
  rw [Command.pos, packWord_eq, Nat.mul_add_mod, Nat.mod_eq_of_lt hp]

theorem val_packWord {c : Config} {pos : Nat} (hp : pos < 2 ^ c.pw) (op : Nat) (val : Bool) (wdata : Nat) :
    Command.val c ⟨packWord c op val pos, wdata⟩ = val := by
  rw [Command.val, Nat.testBit_eq_decide_div_mod_eq, packWord_div hp, Nat.mul_add_mod]
  cases val <;> rfl

theorem op_packWord {c : Config} {op pos : Nat} (ho : op < 32) (hp : pos < 2 ^ c.pw) (val : Bool) (wdata : Nat) :
    Command.op c ⟨packWord c op val pos, wdata⟩ = op := by
  have hv : val.toNat < 2 := val.toNat_lt
  rw [Command.op, Nat.shiftRight_eq_div_pow, Nat.pow_succ, ← Nat.div_div_eq_div_mul, packWord_div hp]
  omega

/-! ## The data bus (30_encoding.md R63) -/

theorem getLsbD_busSlice (wdata k : Nat) {b : Nat} (hb : b < 64) :
    (busSlice wdata k).getLsbD b = wdata.testBit (64 * k + b) := by
  rw [busSlice, BitVec.getLsbD_ofNat, Nat.testBit_shiftRight]
  simp [hb]

theorem toNat_busSlice (wdata k : Nat) : (busSlice wdata k).toNat = wdata / (2 ^ 64) ^ k % 2 ^ 64 := by
  rw [busSlice, BitVec.toNat_ofNat, Nat.shiftRight_eq_div_pow, Nat.pow_mul]

theorem length_ldaElems (c : Config) (wdata : Nat) : (ldaElems c wdata).length = c.w := by
  simp [ldaElems]

theorem getD_ldaElems {c : Config} {i : Nat} (hi : i < c.w) (wdata : Nat) :
    (ldaElems c wdata).getD i 0 = busSlice wdata (c.w - 1 - i) := by
  simp [ldaElems, hi]

/-- From the last element on, the elements are the slices of the bus from its low end on. -/
theorem reverse_ldaElems (c : Config) (wdata : Nat) :
    (ldaElems c wdata).reverse = (List.range c.w).map (busSlice wdata) := by
  refine List.ext_getElem (by simp [ldaElems]) fun k hk _ => ?_
  rw [List.length_reverse, length_ldaElems] at hk
  have hback : c.w - 1 - (c.w - 1 - k) = k := by omega
  simp [ldaElems, hback]

/-- The bus is the number whose digits in base 2^64 are the elements, the first element the highest digit. -/
theorem busOfElems_eq_ofDigits (elems : List Word) :
    busOfElems elems = Nat.ofDigits (2 ^ 64) (elems.reverse.map BitVec.toNat) := by
  rw [Nat.ofDigits_eq_foldr, List.map_reverse, List.foldr_reverse, List.foldl_map, busOfElems]
  congr 1
  funext acc e
  rw [Nat.cast_id]
  ring

/-- Element lists of one length are told apart by their bus. -/
theorem elems_eq_of_bus {l l' : List Word} (hlen : l.length = l'.length) (h : busOfElems l = busOfElems l') :
    l = l' := by
  have hdigit : ∀ l : List Word, ∀ d ∈ l.reverse.map BitVec.toNat, d < 2 ^ 64 := by
    intro l d hd
    obtain ⟨e, -, rfl⟩ := List.mem_map.mp hd
    exact e.isLt
  rw [busOfElems_eq_ofDigits, busOfElems_eq_ofDigits] at h
  have hdigits := Nat.ofDigits_inj_of_len_eq (by decide) (by simpa using hlen) (hdigit l) (hdigit l') h
  have hinj : Function.Injective (BitVec.toNat (w := 64)) := fun _ _ => BitVec.eq_of_toNat_eq
  exact List.reverse_injective (hinj.list_map hdigits)

/-- The low `n` slices of the bus are its digits in base 2^64. -/
theorem ofDigits_busSlices (wdata n : Nat) :
    Nat.ofDigits (2 ^ 64) (((List.range n).map (busSlice wdata)).map BitVec.toNat) = wdata % (2 ^ 64) ^ n := by
  induction n with
  | zero => simp [Nat.mod_one]
  | succ n ih =>
    rw [List.range_succ, List.map_append, List.map_append, Nat.ofDigits_append, ih, Nat.mod_pow_succ]
    simp [toNat_busSlice]

/-- The elements put together are what the DW wires of the bus carry. -/
theorem busOfElems_ldaElems (c : Config) (wdata : Nat) : busOfElems (ldaElems c wdata) = wdata % 2 ^ c.dw := by
  rw [busOfElems_eq_ofDigits, reverse_ldaElems, ofDigits_busSlices, ← Nat.pow_mul, Config.dw]

theorem ldaElems_busOfElems {c : Config} {elems : List Word} (h : elems.length = c.w) :
    ldaElems c (busOfElems elems) = elems := by
  have hlt : busOfElems elems < 2 ^ c.dw := by
    have := Laws.foldl_elems_lt elems 0 0 (by decide)
    rwa [Nat.zero_add, h] at this
  refine elems_eq_of_bus (by rw [length_ldaElems, h]) ?_
  rw [busOfElems_ldaElems, Nat.mod_eq_of_lt hlt]

theorem ldaElems_congr {c : Config} {d d' : Nat} (h : d % 2 ^ c.dw = d' % 2 ^ c.dw) : ldaElems c d = ldaElems c d' := by
  refine elems_eq_of_bus (by rw [length_ldaElems, length_ldaElems]) ?_
  rw [busOfElems_ldaElems, busOfElems_ldaElems, h]

theorem ldiImm_congr {d d' : Nat} (h : d % 2 ^ 64 = d' % 2 ^ 64) : ldiImm d = ldiImm d' := by
  refine BitVec.eq_of_toNat_eq ?_
  simpa [ldiImm, toNat_busSlice] using h

theorem ldiImm_toNat (imm : Word) : ldiImm imm.toNat = imm := by
  simp [ldiImm, busSlice]

theorem toNat_wrwData (c : Config) (wdata : Nat) : (wrwData c wdata).toNat = wdata % 2 ^ c.ww := by
  have hlt : wdata % 2 ^ c.ww < 2 ^ 64 :=
    Nat.lt_of_lt_of_le (Nat.mod_lt _ (Nat.two_pow_pos _)) (Nat.pow_le_pow_right Nat.two_pos c.ww_le)
  rw [wrwData, BitVec.toNat_ofNat, Nat.mod_eq_of_lt hlt]

theorem wrwData_toNat {c : Config} {data : Word} (h : data.toNat < 2 ^ c.ww) : wrwData c data.toNat = data :=
  BitVec.eq_of_toNat_eq (by rw [toNat_wrwData, Nat.mod_eq_of_lt h])

/-! ## The decoder (30_encoding.md R65, R67, R69) -/

/-- The operands of the instruction are those the command carries in the fields its rule names. -/
def Instr.OperandsFrom (c : Config) (m : Command) : Instr → Prop
  | .test pos => pos = m.pos c
  | .rdw idx => idx = m.pos c
  | .setb pos val => pos = m.pos c ∧ val = m.val c
  | .rstb pos => pos = m.pos c
  | .flpb pos => pos = m.pos c
  | .ldi imm => imm = ldiImm m.wdata
  | .lda elems => elems = ldaElems c m.wdata
  | .wrw idx data => idx = m.pos c ∧ data = wrwData c m.wdata
  | .all | .any | .none | .count | .size | .ffo | .ffz | .getm | .seta | .rsta | .flpa => True

/-- The decoder goes by the opcode, and takes the operands of that opcode's instruction from the command. -/
theorem decode_eq_ok_iff {c : Config} {m : Command} {i : Instr} :
    decode c m = .ok i ↔ m.op c = i.opcode ∧ i.OperandsFrom c m := by
  constructor
  · intro h
    unfold decode at h
    split at h <;> cases h <;> exact ⟨‹_›, by simp [Instr.OperandsFrom]⟩
  · rintro ⟨hop, hfrom⟩
    cases i <;> simp_all [decode, Instr.opcode, Instr.OperandsFrom]

/-- The 13 reserved opcodes (30_encoding.md R67). -/
def reservedOpcodes : List Nat :=
  [0x00, 0x0B, 0x0C, 0x0D, 0x0E, 0x0F, 0x19, 0x1A, 0x1B, 0x1C, 0x1D, 0x1E, 0x1F]

theorem opcode_not_reserved (i : Instr) : i.opcode ∉ reservedOpcodes := by
  cases i <;> simp [Instr.opcode, reservedOpcodes]

/-- What is refused is refused by name, and its opcode is not in the opcode map. -/
theorem reserved_of_decode_error {c : Config} {m : Command} {e : DecodeError} (h : decode c m = .error e) :
    m.op c ∈ reservedOpcodes ∧ e = .reservedOpcode (m.op c) := by
  have hlt : m.op c < 32 := Nat.mod_lt _ (by decide)
  unfold decode at h
  split at h <;> cases h
  refine ⟨?_, rfl⟩
  simp only [reservedOpcodes, List.mem_cons, List.not_mem_nil, or_false, imp_false] at *
  omega

theorem decode_error_of_reserved {c : Config} {m : Command} (h : m.op c ∈ reservedOpcodes) :
    ∃ e, decode c m = .error e := by
  cases hd : decode c m with
  | error e => exact ⟨e, rfl⟩
  | ok i =>
    rw [(decode_eq_ok_iff.mp hd).1] at h
    exact absurd h (opcode_not_reserved i)

/-- All that the decoder reads of a command, opcode by opcode: commands that agree on it decode alike. -/
theorem decode_congr {c : Config} {m m' : Command} (hop : m.op c = m'.op c)
    (hpos : m.op c ∈ [0x01, 0x11, 0x13, 0x15, 0x0A, 0x18] → m.pos c = m'.pos c)
    (hval : m.op c = 0x11 → m.val c = m'.val c) (hldi : m.op c = 0x16 → ldiImm m.wdata = ldiImm m'.wdata)
    (hlda : m.op c = 0x17 → ldaElems c m.wdata = ldaElems c m'.wdata)
    (hwrw : m.op c = 0x18 → wrwData c m.wdata = wrwData c m'.wdata) : decode c m = decode c m' := by
  unfold decode
  rw [← hop]
  split <;> simp_all

/-- The same, of packed commands and their fields. -/
theorem decode_packWord_congr {c : Config} {op p p' d d' : Nat} {v v' : Bool} (ho : op < 32) (hp : p < 2 ^ c.pw)
    (hp' : p' < 2 ^ c.pw) (hpos : op ∈ [0x01, 0x11, 0x13, 0x15, 0x0A, 0x18] → p = p') (hval : op = 0x11 → v = v')
    (hldi : op = 0x16 → ldiImm d = ldiImm d') (hlda : op = 0x17 → ldaElems c d = ldaElems c d')
    (hwrw : op = 0x18 → wrwData c d = wrwData c d') :
    decode c ⟨packWord c op v p, d⟩ = decode c ⟨packWord c op v' p', d'⟩ := by
  have hop := op_packWord ho hp v d
  refine decode_congr (hop.trans (op_packWord ho hp' v' d').symm) ?_ ?_ ?_ ?_ ?_ <;> rw [hop]
  · rwa [pos_packWord hp, pos_packWord hp']
  · rwa [val_packWord hp, val_packWord hp']
  · exact hldi
  · exact hlda
  · exact hwrw

/-! ## The encoder (30_encoding.md R62) -/

theorem posField_lt {c : Config} {i : Instr} (h : i.wf c = true) : i.posField < 2 ^ c.pw := by
  cases i <;> simp_all [Instr.wf, Instr.posField]

theorem op_encode {c : Config} {i : Instr} (h : i.wf c = true) : (encode c i).op c = i.opcode :=
  op_packWord (Laws.opcode_lt i) (posField_lt h) _ _

theorem pos_encode {c : Config} {i : Instr} (h : i.wf c = true) : (encode c i).pos c = i.posField :=
  pos_packWord (posField_lt h) _ _ _

theorem val_encode {c : Config} {i : Instr} (h : i.wf c = true) : (encode c i).val c = i.valField :=
  val_packWord (posField_lt h) _ _ _

/-- The canonical command carries the operands of its instruction. -/
theorem operandsFrom_encode {c : Config} {i : Instr} (h : i.wf c = true) : i.OperandsFrom c (encode c i) := by
  have hpos := (pos_encode h).symm
  have hval := (val_encode h).symm
  cases i
  case test | rdw | rstb | flpb => exact hpos
  case setb => exact ⟨hpos, hval⟩
  case ldi imm => exact (ldiImm_toNat imm).symm
  case lda elems => exact (ldaElems_busOfElems (beq_iff_eq.mp h)).symm
  case wrw idx data =>
    obtain ⟨-, hdata⟩ := Bool.and_eq_true_iff.mp h
    exact ⟨hpos, (wrwData_toNat (of_decide_eq_true hdata)).symm⟩
  all_goals trivial

/-- Operands that come from a command fit their fields. -/
theorem wf_of_operandsFrom {c : Config} {m : Command} {i : Instr} (h : i.OperandsFrom c m) : i.wf c = true := by
  have hpos : m.pos c < 2 ^ c.pw := Nat.mod_lt _ (Nat.two_pow_pos _)
  have hdata : m.wdata % 2 ^ c.ww < 2 ^ c.ww := Nat.mod_lt _ (Nat.two_pow_pos _)
  cases i <;> simp_all [Instr.OperandsFrom, Instr.wf, length_ldaElems, toNat_wrwData]

end Sys2Proof

namespace Sys2Proof.Machine

/-! ## The step on a presented command (30_encoding.md R61, R67) -/

theorem step_of_decode_ok {s : State} {m : Command} {rest : List HostMove} {i : Instr}
    (hm : s.cmds = .command m :: rest) (hd : decode s.cfg m = .ok i) : step s = exec i { s with cmds := rest } := by
  simp [step, fetch, hm, hd]

theorem step_of_decode_error {s : State} {m : Command} {rest : List HostMove} {e : DecodeError}
    (hm : s.cmds = .command m :: rest) (hd : decode s.cfg m = .error e) :
    step s = .next (illegalOpcode { s with cmds := rest }) := by
  simp [step, fetch, hm, hd]

/-- A presented command, reserved or not, gets one response. -/
theorem step_present_answers (s : State) (m : Command) :
    ∃ t r, step (s.present m) = .next t ∧ t.rsps = s.rsps ++ [r] := by
  cases hd : decode s.cfg m with
  | ok i =>
    obtain ⟨t, ht, -, -, r, hr⟩ := exec_answers i s
    exact ⟨t, r, (step_of_decode_ok (s := s.present m) rfl hd).trans ht, hr⟩
  | error e =>
    obtain ⟨-, -, r, hr⟩ := unlessHalted_answered (takeFault_answered s .illegalOp)
    exact ⟨_, r, step_of_decode_error (s := s.present m) rfl hd, hr⟩

/-! ## What a command does in a block that is not halted (30_encoding.md R71, 60_exceptions.md R141 to R145) -/

/-- The cause of the fault that a command outside the contract takes (60_exceptions.md R141). -/
def faultCause (i : Instr) : FCause := if i.opcode ∈ [0x16, 0x17] then .illegalOp else .indexRange

/-- The response says no fault, and sets no field but the one that the row of the opcode names (30_encoding.md R71). -/
def Response.FieldOf (op : Nat) (r : Response) : Prop :=
  r.fault = false ∧ (op ∉ [0x01, 0x02, 0x03, 0x04] → r.bit = false) ∧ (op ∉ [0x05, 0x06, 0x07, 0x08] → r.idx = 0) ∧
    (op ∉ [0x09, 0x0A] → r.word = 0)

theorem fieldOf_done (op : Nat) : Response.done.FieldOf op := ⟨rfl, fun _ => rfl, fun _ => rfl, fun _ => rfl⟩

theorem fieldOf_ofBit {op : Nat} (h : op ∈ [0x01, 0x02, 0x03, 0x04]) (b : Bool) : (Response.ofBit b).FieldOf op :=
  ⟨rfl, absurd h, fun _ => rfl, fun _ => rfl⟩

theorem fieldOf_ofIdx {op : Nat} (h : op ∈ [0x05, 0x06, 0x07, 0x08]) (k : Nat) : (Response.ofIdx k).FieldOf op :=
  ⟨rfl, fun _ => rfl, absurd h, fun _ => rfl⟩

theorem fieldOf_ofWord {op : Nat} (h : op ∈ [0x09, 0x0A]) (v : Word) : (Response.ofWord v).FieldOf op :=
  ⟨rfl, fun _ => rfl, fun _ => rfl, absurd h⟩

/-- Every command is `unlessHalted` around its body. -/
theorem next_unlessHalted {s b b' : State} (hlive : s.fault = false) (hb : b = b') :
    (.next (unlessHalted s b) : Host.Outcome State Fault Refusal) = .next b' := by
  rw [unlessHalted_of_live hlive, hb]

/-- A command within the contract completes: it writes the word array at most, and answers with the field of its row. -/
theorem exec_of_legal {s : State} (hlive : s.fault = false) {i : Instr} (hl : legal s.cfg i = true) :
    ∃ ws r, exec i s = .next (respond { s with words := ws } r) ∧ r.FieldOf i.opcode := by
  have hbit {p : Nat} (h : legal s.cfg (.test p) = true) (f : Nat → Nat → State) :=
    next_unlessHalted hlive (atBit_of_lt (of_decide_eq_true h) f)
  have hword {k : Nat} (h : legal s.cfg (.rdw k) = true) (b : State) :=
    next_unlessHalted hlive (atWord_of_lt (of_decide_eq_true h) b)
  have hnullary (b : State) := next_unlessHalted (b := b) hlive rfl
  cases i
  case test p => exact ⟨_, _, hbit hl _, fieldOf_ofBit (op := 0x01) (by decide) _⟩
  case all | any | none => exact ⟨_, _, hnullary _, fieldOf_ofBit (by decide) _⟩
  case count | size | ffo | ffz => exact ⟨_, _, hnullary _, fieldOf_ofIdx (by decide) _⟩
  case getm => exact ⟨_, _, hnullary _, fieldOf_ofWord (by decide) _⟩
  case rdw idx => exact ⟨_, _, hword hl _, fieldOf_ofWord (op := 0x0A) (by decide) _⟩
  case wrw idx d => exact ⟨_, _, hword hl _, fieldOf_done _⟩
  case rstb p | flpb p => exact ⟨_, _, hbit hl _, fieldOf_done _⟩
  case setb p v => cases v <;> exact ⟨_, _, hbit hl _, fieldOf_done _⟩
  case ldi | lda => exact ⟨_, _, next_unlessHalted hlive (if_pos hl), fieldOf_done _⟩
  case seta | rsta | flpa => exact ⟨_, _, hnullary _, fieldOf_done _⟩

/-- A command outside the contract takes INDEX_RANGE for its index or ILLEGAL_OP as an absent load. -/
theorem exec_of_illegal {s : State} (hlive : s.fault = false) {i : Instr} (hl : legal s.cfg i = false) :
    exec i s = .next (takeFault s (faultCause i)) := by
  have hge : ∀ {k n : Nat}, decide (k < n) = false → n ≤ k := fun h => Nat.le_of_not_lt (of_decide_eq_false h)
  cases i
  case test p | setb p _ | rstb p | flpb p => exact next_unlessHalted hlive (atBit_of_ge (hge hl) _)
  case rdw idx | wrw idx _ => exact next_unlessHalted hlive (atWord_of_ge (hge hl) _)
  case ldi | lda => exact next_unlessHalted hlive (if_neg (Bool.eq_false_iff.mp hl))
  all_goals exact absurd hl Bool.noConfusion

/-! ## The transaction at the port (30_encoding.md R61) -/

theorem ticks_cons {p q r : PortState} {i : PortIn} {later : List PortIn} {o : PortOut} {os : List PortOut}
    (h : tick p i = .next (q, o)) (hs : ticks q later = .next (r, os)) : ticks p (i :: later) = .next (r, o :: os) := by
  simp [ticks, h, hs]

/-- From acceptance on: the waiting edges show neither ready nor a response, and the last edge makes one step of the
block. -/
theorem ticks_of_inFlight {m : Command} {k : Nat} {p : PortState} {later : List PortIn} {t : State}
    (hf : p.inFlight = some (m, k)) (hlen : later.length = k + 1) (hrst : ∀ j ∈ later, j.rst = false)
    (ht : step (p.core.present m) = .next t) :
    ∃ waiting, ticks p later = .next ({ p with core := t, inFlight := none },
        waiting ++ [outputs t false t.rsps.getLast?]) ∧
      ∀ o ∈ waiting, o.cmdReady = false ∧ o.rspValid = false := by
  induction k generalizing p later with
  | zero =>
    obtain ⟨i, rfl⟩ := List.length_eq_one_iff.mp hlen
    exact ⟨[], ticks_cons (tick_answer (hrst i List.mem_cons_self) hf ht) rfl, by simp⟩
  | succ k ih =>
    obtain ⟨i, later, rfl⟩ := List.exists_cons_of_length_eq_add_one hlen
    obtain ⟨waiting, hticks, hwait⟩ := ih (p := { p with inFlight := some (m, k) }) rfl (Nat.succ.inj hlen)
      (fun j hj => hrst j (List.mem_cons_of_mem _ hj)) ht
    refine ⟨outputs p.core false none :: waiting, ticks_cons (tick_wait (hrst i List.mem_cons_self) hf) hticks, ?_⟩
    exact List.forall_mem_cons.mpr ⟨⟨rfl, rfl⟩, hwait⟩

/-! ## The operands of an assembled line (30_encoding.md R72) -/

theorem numberBelow_lt {bits k : Nat} {cs : List Char} (h : numberBelow bits cs = some k) : k < 2 ^ bits := by
  obtain ⟨-, hk⟩ := Option.filter_eq_some_iff.mp h
  exact of_decide_eq_true hk

theorem wf_of_ite_some {c : Config} {p : Prop} [Decidable p] {i j : Instr} {o : Option Instr} (hj : j.wf c = true)
    (ho : o = some i → i.wf c = true) (h : (if p then some j else o) = some i) : i.wf c = true := by
  split at h
  · rwa [← Option.some.inj h]
  · exact ho h

theorem nullary_wf {cs : List Char} {i : Instr} (h : nullary cs = some i) (c : Config) : i.wf c = true := by
  revert h
  unfold nullary
  iterate 11 refine wf_of_ite_some rfl ?_
  nofun

theorem unary_wf {c : Config} {cs a : List Char} {i : Instr} (h : unary c cs a = some i) : i.wf c = true := by
  unfold unary at h
  split at h
  · obtain ⟨k, -, rfl⟩ := Option.map_eq_some_iff.mp h
    rfl
  · obtain ⟨k, hk, h⟩ := Option.bind_eq_some_iff.mp h
    have hpos := decide_eq_true (numberBelow_lt hk)
    revert h
    iterate 5 refine wf_of_ite_some hpos ?_
    nofun

theorem binary_wf {c : Config} {cs a b : List Char} {i : Instr} (h : binary c cs a b = some i) : i.wf c = true := by
  obtain ⟨k, hk, h⟩ := Option.bind_eq_some_iff.mp h
  have hpos := decide_eq_true (numberBelow_lt hk)
  split_ifs at h
  · obtain ⟨v, -, rfl⟩ := Option.map_eq_some_iff.mp h
    exact hpos
  · obtain ⟨d, hd, rfl⟩ := Option.map_eq_some_iff.mp h
    have hdata : (BitVec.ofNat 64 d).toNat < 2 ^ c.ww := Nat.lt_of_le_of_lt (Nat.mod_le ..) (numberBelow_lt hd)
    exact Bool.and_eq_true_iff.mpr ⟨hpos, decide_eq_true hdata⟩

/-- The number of elements of LDA is checked with the instance's constraints, every other operand where it is read. -/
theorem parseTokens_wf {c : Config} {ts : List Token} {i : Instr} (h : parseTokens c ts = some i)
    (ha : accepts c i = true) : i.wf c = true := by
  unfold parseTokens at h
  split at h
  · exact nullary_wf h c
  · exact unary_wf h
  · exact binary_wf h
  · split_ifs at h
    obtain ⟨elems, -, rfl⟩ := Option.map_eq_some_iff.mp h
    exact (Bool.and_eq_true_iff.mp ha).2
  · cases h

/-- The assembler's constraints leave no load that the instance lacks, so only an index can be outside the contract. -/
theorem faultCause_of_accepts {c : Config} {i : Instr} (ha : accepts c i = true) (hl : legal c i = false) :
    faultCause i = .indexRange := by
  cases i
  case ldi imm => exact absurd (ha.symm.trans hl) Bool.noConfusion
  case lda elems => exact absurd ((Bool.and_eq_true_iff.mp ha).1.symm.trans hl) Bool.noConfusion
  all_goals rfl

/-! ## The statements -/

/-- Settles O12: the canonical command has the opcode and carries the operands of its instruction. -/
theorem decodeOfEncodeIsTheInstruction : Obligations.DecodeOfEncodeIsTheInstruction :=
  fun _ _ h => decode_eq_ok_iff.mpr ⟨op_encode h, operandsFrom_encode h⟩

/-- Settles O13: a decoded instruction has the command's opcode, and its operands come from the command's fields. -/
theorem decodedInstructionIsWellFormed : Obligations.DecodedInstructionIsWellFormed := by
  intro c m i h
  obtain ⟨hop, hfrom⟩ := decode_eq_ok_iff.mp h
  exact ⟨wf_of_operandsFrom hfrom, hop.symm⟩

/-- Settles O14: a refused opcode is a reserved one, and no instruction has a reserved opcode. -/
theorem exactlyTheReservedOpcodesAreRejected : Obligations.ExactlyTheReservedOpcodesAreRejected :=
  fun _ _ => ⟨⟨fun ⟨_, h⟩ => (reserved_of_decode_error h).1, decode_error_of_reserved⟩,
    fun _ h => (reserved_of_decode_error h).2⟩

/-- Settles O15: `{op, val}` is the quotient of the word by 2^PW, `pos` the remainder. -/
theorem packedFieldsReadBack : Obligations.PackedFieldsReadBack :=
  fun c op val _ wdata ho hp => ⟨Laws.packWord_lt c val ho hp, op_packWord ho hp val wdata,
    val_packWord hp op val wdata, pos_packWord hp op val wdata⟩

/-- Settles O16: element i is a slice of the bus, and the slices are its digits in base 2^64. -/
theorem busIsItsElementsInReadingOrder : Obligations.BusIsItsElementsInReadingOrder := by
  refine fun c wdata hd => ⟨fun i hi b hb => ?_, ?_⟩
  · rw [getD_ldaElems hi, getLsbD_busSlice _ _ hb]
  · rw [busOfElems_ldaElems, Nat.mod_eq_of_lt hd]

/-- Settles O17: each clause changes a field that `decode_packWord_congr` does not ask about at the opcode. -/
theorem unnamedFieldsDoNotChangeTheCommand : Obligations.UnnamedFieldsDoNotChangeTheCommand := by
  intro c op v v' p p' d d' ho hp hp'
  refine ⟨fun hop => ?_, fun hop => ?_, fun hop => ?_, ?_, ?_, ?_⟩
  · exact decode_packWord_congr ho hp hp (fun _ => rfl) (fun h => absurd h hop) (fun _ => rfl)
      (fun _ => rfl) (fun _ => rfl)
  · exact decode_packWord_congr ho hp hp' (fun h => absurd h hop) (fun _ => rfl) (fun _ => rfl)
      (fun _ => rfl) (fun _ => rfl)
  · refine decode_packWord_congr ho hp hp (fun _ => rfl) (fun _ => rfl) ?_ ?_ ?_ <;> rintro rfl <;> simp at hop
  · rintro rfl h
    exact decode_packWord_congr ho hp hp (fun _ => rfl) (fun _ => rfl) nofun nofun fun _ => by rw [wrwData, h, wrwData]
  · rintro rfl h
    exact decode_packWord_congr ho hp hp (fun _ => rfl) (fun _ => rfl) (fun _ => ldiImm_congr h) nofun nofun
  · rintro rfl h
    exact decode_packWord_congr ho hp hp (fun _ => rfl) (fun _ => rfl) nofun (fun _ => ldaElems_congr h) nofun

/-- Settles O18: N fixes the widths, and the fields of the listed words are then numbers. -/
theorem listedCommandWordsDecode : Obligations.ListedCommandWordsDecode := by
  simp only [Obligations.ListedCommandWordsDecode, decode_eq_ok_iff, Instr.OperandsFrom, Command.op, Command.pos,
    Command.val, ldaElems, wrwData]
  refine ⟨fun c hn => ?_, fun c hn => ?_⟩
  · have hpw : c.pw = 4 := by rw [Config.pw, hn]; rfl
    have hww : c.ww = 16 := by rw [Config.ww, hn]; rfl
    rw [hpw, hww]
    decide
  · have hpw : c.pw = 7 := by rw [Config.pw, hn]; rfl
    have hw : c.w = 2 := by rw [Config.w, hn]
    rw [hpw, hw]
    decide

/-- Settles O19: `withFetchWord` is the case of a presented command. -/
theorem stepRunsTheDecodedInstruction : Obligations.StepRunsTheDecodedInstruction :=
  ⟨fun _ _ _ _ hm hd => step_of_decode_ok hm hd, fun _ _ _ _ hd => step_of_decode_ok rfl hd⟩

/-- Settles O20: the block is not halted, so `illegalOpcode` takes the fault. -/
theorem reservedOpcodeTakesIllegalOp : Obligations.ReservedOpcodeTakesIllegalOp := by
  intro s m rest e hm hd hlive
  rw [step_of_decode_error hm hd, illegalOpcode, unlessHalted_of_live (s := { s with cmds := rest }) hlive]
  rfl

/-- Settles O25: an absent load is outside the contract. -/
theorem absentLoadTakesIllegalOp : Obligations.AbsentLoadTakesIllegalOp := by
  rintro s u imm elems hlive rfl
  exact ⟨fun hn => exec_of_illegal hlive (decide_eq_false (Nat.not_le.mpr hn)),
    fun hn => exec_of_illegal hlive (decide_eq_false (Nat.not_lt.mpr hn))⟩

/-- Settles O39: a refusal, a completion and a fault are all a command can answer. -/
theorem responsesCarryOnlyTheirField : Obligations.ResponsesCarryOnlyTheirField := by
  intro i s
  cases hf : s.fault
  case true => exact ⟨_, _, exec_of_halted hf i, refuse_rsps s, fun _ => rfl, fun h => absurd (hf.symm.trans h) nofun⟩
  case false =>
    cases hl : legal s.cfg i
    case true =>
      obtain ⟨ws, r, ht, hr⟩ := exec_of_legal hf hl
      exact ⟨_, r, ht, rfl, fun h => absurd (hf.symm.trans h) nofun, fun _ => hr⟩
    case false => exact ⟨_, _, exec_of_illegal hf hl, takeFault_rsps s _, fun _ => rfl, nofun⟩

/-- Settles O53, by induction on the latency: one accepting edge, the waiting edges, one step. -/
theorem portTransactionIsOneStep : Obligations.PortTransactionIsOneStep := by
  intro p i later hidle hrst hvalid hlen hlater
  obtain ⟨t, r, ht, hr⟩ := step_present_answers p.core (i.command p.core.cfg)
  have haccept := tick_accept hrst hidle hvalid
  obtain ⟨waiting, hticks, hwait⟩ := ticks_of_inFlight
    (p := { p with inFlight := some (i.command p.core.cfg, p.latency (i.command p.core.cfg)),
                   accepted := p.accepted + 1 }) rfl hlen hlater ht
  refine ⟨t, r, _, _, _, waiting, ht, hr, ticks_cons haccept hticks, rfl, rfl, rfl, rfl, hwait, rfl, ?_, rfl, rfl⟩
  simp [outputs, hr]

/-- Settles O55: an accepted command completes or takes INDEX_RANGE. -/
theorem assembledLineNeverTakesIllegalOp : Obligations.AssembledLineNeverTakesIllegalOp := by
  intro c line i h
  obtain ⟨hparse, ha⟩ := Option.filter_eq_some_iff.mp h
  refine ⟨parseTokens_wf hparse ha, ?_⟩
  rintro s rfl hlive hcause
  cases hl : legal s.cfg i
  case true =>
    obtain ⟨ws, r, ht, -⟩ := exec_of_legal hlive hl
    exact ⟨_, ht, by simp [hcause]⟩
  case false => exact ⟨_, exec_of_illegal hlive hl, by simp [faultCause_of_accepts ha hl]⟩

end Sys2Proof.Machine

end

/-! SUPPORT and PROOFS. The statements of 40_construction.md: what the two loads store, and that every command on the
words refines the command on the integer V. -/

section

namespace Sys2Proof.Machine

/-! ## V from the bits below N (10_state.md R24) -/

theorem value_eq_mod_of_bits {s : State} (h : s.Masked) {v : Nat} (hb : ∀ p, p < s.cfg.n → s.bit p = v.testBit p) :
    s.value = v % 2 ^ s.cfg.n := by
  refine value_eq_of_bits h fun p => ?_
  rw [Nat.testBit_mod_two_pow]
  by_cases hp : p < s.cfg.n
  · simp [hp, hb p hp]
  · simp [hp, bit_of_ge h (Nat.le_of_not_lt hp)]

theorem value_eq_of_bits_below {s : State} (h : s.Masked) {v : Nat} (hv : v < 2 ^ s.cfg.n)
    (hb : ∀ p, p < s.cfg.n → s.bit p = v.testBit p) : s.value = v := by
  rw [value_eq_mod_of_bits h hb, Nat.mod_eq_of_lt hv]

/-! ## Masks of a word within WW bits (20_memory.md R44) -/

theorem ones_and_wMask (c : Config) (j : Nat) : c.ones &&& wMask c j = wMask c j := by
  rw [BitVec.and_comm]
  exact and_eq_self_of_masked (ones_of_wMask (BitVec.and_not_self _))

/-- A 64-bit word has no bit above WW = 64. -/
theorem and_ones_of_gt {c : Config} (h : 64 < c.n) (v : Word) : v &&& c.ones = v := by
  refine and_eq_self_of_masked ((and_not_eq_zero_iff v c.ones).mpr fun i hi => ?_)
  simpa [Config.getLsbD_ones, Config.ww_eq_of_gt h] using BitVec.lt_of_getLsbD hi

/-- Bits after a masked write of one word. -/
theorem bit_memWrite {s : State} (hl : s.words.length = s.cfg.w) (j : Nat) (v : Word) {p : Nat} (hp : p < s.cfg.n) :
    (memWrite s j v).bit p = if p / s.cfg.ww = j then v.getLsbD (p % s.cfg.ww) else s.bit p := by
  have hj : p / s.cfg.ww < s.cfg.w := idxOf_lt hp
  rw [bit_eq_getLsbD, memWrite_cfg]
  split
  · next e =>
    rw [← e, memRead_memWrite_same s v (hl ▸ hj), BitVec.getLsbD_and, getLsbD_wMask _ hj, Nat.div_add_mod']
    simp [hp, Nat.mod_lt p s.cfg.ww_pos]
  · next e => rw [memRead_memWrite_other s v e, bit_eq_getLsbD]

/-! ## LDI (40_construction.md R81, R83) -/

theorem exec_ldi {s : State} (hlive : s.fault = false) (hn : s.cfg.n ≤ 64) (imm : Word) :
    exec (.ldi imm) s = .next (respond (memWrite s 0 (imm &&& s.cfg.ones)) .done) :=
  next_unlessHalted hlive (if_pos (decide_eq_true hn))

theorem words_ldi {s : State} (hl : s.words.length = s.cfg.w) (hn : s.cfg.n ≤ 64) (imm : Word) :
    (memWrite s 0 (imm &&& s.cfg.ones)).words = [imm &&& s.cfg.msbMask] := by
  have hw := Config.w_eq_one hn
  have htop : wMask s.cfg 0 = s.cfg.msbMask := by rw [← wMask_top, hw]
  obtain ⟨v, hv⟩ := List.length_eq_one_iff.mp (hl.trans hw)
  rw [memWrite_words, BitVec.and_assoc, ones_and_wMask, htop, hv, List.set_cons_zero]

theorem bit_ldi {s : State} (hl : s.words.length = s.cfg.w) (hn : s.cfg.n ≤ 64) (imm : Word) {p : Nat}
    (hp : p < s.cfg.n) : (memWrite s 0 (imm &&& s.cfg.ones)).bit p = imm.getLsbD p := by
  have hlt : p < s.cfg.ww := Nat.lt_of_lt_of_le hp (Config.n_le_ww hn)
  rw [bit_memWrite hl 0 _ hp, if_pos (Nat.div_eq_of_lt hlt), Nat.mod_eq_of_lt hlt, BitVec.getLsbD_and,
    Config.getLsbD_ones]
  simp [hlt]

theorem value_ldi {s : State} (h : s.Masked) (hn : s.cfg.n ≤ 64) (imm : Word) :
    (memWrite s 0 (imm &&& s.cfg.ones)).value = imm.toNat % 2 ^ s.cfg.n :=
  value_eq_mod_of_bits (memWrite_masked h 0 _) fun _ hp => bit_ldi h.1 hn imm hp

/-! ## LDA (40_construction.md R82, R83, R84) -/

theorem exec_lda {s : State} (hlive : s.fault = false) (hn : 64 < s.cfg.n) (elems : List Word) :
    exec (.lda elems) s = .next (respond (memWriteAll s fun j => elems.getD (s.cfg.w - 1 - j) 0) .done) :=
  next_unlessHalted hlive (if_pos (decide_eq_true hn))

/-- The elements come off the bus highest first, so word j is slice j of the bus. -/
theorem bit_lda_bus {s : State} (hn : 64 < s.cfg.n) (wdata : Nat) {p : Nat} (hp : p < s.cfg.n) :
    (memWriteAll s fun j => (ldaElems s.cfg wdata).getD (s.cfg.w - 1 - j) 0).bit p = wdata.testBit p := by
  have hj : p / s.cfg.ww < s.cfg.w := idxOf_lt hp
  have hback := Nat.sub_sub_self (Nat.le_sub_one_of_lt hj)
  have hfront : s.cfg.w - 1 - p / s.cfg.ww < s.cfg.w :=
    Nat.lt_of_le_of_lt (Nat.sub_le _ _) (Nat.sub_lt s.cfg.w_pos Nat.one_pos)
  rw [bit_memWriteAll s _ hp, getD_ldaElems hfront, hback, Config.ww_eq_of_gt hn,
    getLsbD_busSlice _ _ (Nat.mod_lt p (by decide)), Nat.div_add_mod]

theorem value_lda_bus {s : State} (hn : 64 < s.cfg.n) (wdata : Nat) :
    (memWriteAll s fun j => (ldaElems s.cfg wdata).getD (s.cfg.w - 1 - j) 0).value = wdata % 2 ^ s.cfg.n :=
  value_eq_mod_of_bits (memWriteAll_masked s _) fun _ hp => bit_lda_bus hn wdata hp

theorem value_lda {s : State} (hn : 64 < s.cfg.n) {elems : List Word} (hlen : elems.length = s.cfg.w) :
    (memWriteAll s fun j => elems.getD (s.cfg.w - 1 - j) 0).value = busOfElems elems % 2 ^ s.cfg.n := by
  have := value_lda_bus hn (busOfElems elems)
  rwa [ldaElems_busOfElems hlen] at this

/-- The top bit lies in the top word, which holds the first element. -/
theorem topBit_lda {s : State} (hn : 64 < s.cfg.n) (elems : List Word) :
    (memWriteAll s fun j => elems.getD (s.cfg.w - 1 - j) 0).bit (s.cfg.n - 1)
      = (elems.getD 0 0).getLsbD ((s.cfg.n - 1) % 64) := by
  have htop : (s.cfg.n - 1) / 64 = s.cfg.w - 1 := by
    unfold Config.w
    omega
  rw [bit_memWriteAll s _ (by omega), Config.ww_eq_of_gt hn, htop, Nat.sub_self]

/-! ## The mutators in the integer view (42_mutators.md R119) -/

/-- A write that changes bit `pos` alone changes V in bit `pos` alone. -/
theorem value_rawWrite_one {s : State} (h : s.Masked) {pos : Nat} (hp : pos < s.cfg.n) {v : Word} {x : Nat}
    (hv : ∀ i, i ≠ pos % s.cfg.ww → v.getLsbD i = (memRead s (pos / s.cfg.ww)).getLsbD i)
    (hbit : x.testBit pos = v.getLsbD (pos % s.cfg.ww)) (hother : ∀ q, q ≠ pos → x.testBit q = s.value.testBit q) :
    (rawWrite s (pos / s.cfg.ww) v).value = x := by
  refine value_eq_of_bits (rawWrite_one_masked h hp v hv) fun q => ?_
  rw [bit_rawWrite_one h hp v q hv]
  split
  · next e => rw [e, hbit]
  · next e => rw [hother q e, testBit_value h]

theorem getLsbD_bitMask_mod (c : Config) (pos : Nat) : (bitMask (pos % c.ww)).getLsbD (pos % c.ww) = true := by
  have hlt : pos % c.ww < 64 := Nat.lt_of_lt_of_le (Nat.mod_lt pos c.ww_pos) c.ww_le
  simp only [getLsbD_bitMask, hlt, decide_true, Bool.and_self]

section
variable {s : State} {pos : Nat}

theorem setBit_masked (h : s.Masked) (hp : pos < s.cfg.n) :
    (rawWrite s (pos / s.cfg.ww) (memRead s (pos / s.cfg.ww) ||| bitMask (pos % s.cfg.ww))).Masked :=
  rawWrite_one_masked h hp _ fun _ => getLsbD_or_bitMask_other _

theorem value_setBit (h : s.Masked) (hp : pos < s.cfg.n) :
    (rawWrite s (pos / s.cfg.ww) (memRead s (pos / s.cfg.ww) ||| bitMask (pos % s.cfg.ww))).value
      = s.value ||| 2 ^ pos := by
  refine value_rawWrite_one h hp (fun _ => getLsbD_or_bitMask_other _) ?_ fun q hq => ?_
  · rw [BitVec.getLsbD_or, getLsbD_bitMask_mod, Nat.testBit_or, Nat.testBit_two_pow_self, Bool.or_true, Bool.or_true]
  · simp [hq.symm]

theorem clearBit_masked (h : s.Masked) (hp : pos < s.cfg.n) :
    (clearBit s (pos / s.cfg.ww) (pos % s.cfg.ww)).Masked :=
  rawWrite_one_masked h hp _ fun _ => getLsbD_clear_other h (idxOf_lt hp)

theorem value_clearBit (h : s.Masked) (hp : pos < s.cfg.n) :
    (clearBit s (pos / s.cfg.ww) (pos % s.cfg.ww)).value = (s.value ||| 2 ^ pos) ^^^ 2 ^ pos := by
  refine value_rawWrite_one h hp (fun _ => getLsbD_clear_other h (idxOf_lt hp)) ?_ fun q hq => ?_
  · rw [BitVec.getLsbD_and, getLsbD_notWord, getLsbD_bitMask_mod, Nat.testBit_xor, Nat.testBit_or,
      Nat.testBit_two_pow_self]
    simp
  · simp [hq.symm]

theorem flipBit_masked (h : s.Masked) (hp : pos < s.cfg.n) :
    (rawWrite s (pos / s.cfg.ww) (memRead s (pos / s.cfg.ww) ^^^ bitMask (pos % s.cfg.ww))).Masked :=
  rawWrite_one_masked h hp _ fun _ => getLsbD_xor_bitMask_other _

theorem value_flipBit (h : s.Masked) (hp : pos < s.cfg.n) :
    (rawWrite s (pos / s.cfg.ww) (memRead s (pos / s.cfg.ww) ^^^ bitMask (pos % s.cfg.ww))).value
      = s.value ^^^ 2 ^ pos := by
  refine value_rawWrite_one h hp (fun _ => getLsbD_xor_bitMask_other _) ?_ fun q hq => ?_
  · rw [BitVec.getLsbD_xor, getLsbD_bitMask_mod, Nat.testBit_xor, Nat.testBit_two_pow_self, testBit_value h,
      bit_eq_getLsbD]
  · simp [hq.symm]

end

theorem value_seta (s : State) : (memWriteAll s fun _ => s.cfg.ones).value = 2 ^ s.cfg.n - 1 := by
  have hlt : 2 ^ s.cfg.n - 1 < 2 ^ s.cfg.n := Nat.sub_lt (Nat.two_pow_pos _) Nat.one_pos
  refine value_eq_of_bits_below (memWriteAll_masked s _) hlt fun p hp => ?_
  have hp' : p < s.cfg.n := hp
  rw [bit_memWriteAll s _ hp, Config.getLsbD_ones, Nat.testBit_two_pow_sub_one, decide_eq_true hp',
    decide_eq_true (Nat.mod_lt p s.cfg.ww_pos)]

/-- RSTA leaves the words of the reset state. -/
theorem value_rsta (s : State) : (rawWriteAll s fun _ => 0).value = 0 := by
  have hwords : (rawWriteAll s fun _ => 0).words = (State.resetFor s.cfg).words := by simp
  exact (value_congr (s := State.resetFor s.cfg) (t := rawWriteAll s fun _ => 0) rfl hwords).trans (value_resetFor s.cfg)

theorem value_flpa {s : State} (h : s.Masked) :
    (memWriteAll s fun j => notWord s.cfg (memRead s j)).value = 2 ^ s.cfg.n - 1 - s.value := by
  have hlt := value_lt_of_masked h
  have hsub : 2 ^ s.cfg.n - 1 - s.value = 2 ^ s.cfg.n - (s.value + 1) := by omega
  refine value_eq_of_bits_below (memWriteAll_masked s _) (?_ : _ < 2 ^ s.cfg.n) fun p hp => ?_
  · omega
  · have hp' : p < s.cfg.n := hp
    rw [bit_memWriteAll s _ hp, getLsbD_notWord, hsub, Nat.testBit_two_pow_sub_succ hlt, testBit_value h,
      bit_eq_getLsbD, decide_eq_true hp', decide_eq_true (Nat.mod_lt p s.cfg.ww_pos)]

/-! ## The queries in the integer view (41_queries.md R100) -/

/-- Comparing every word with the words of a state compares V with the V of that state. -/
theorem everyWord_eq_value_eq {s t : State} (hs : s.Masked) (ht : t.Masked) (hc : s.cfg = t.cfg) {f : Nat → Word}
    (hf : ∀ j, j < s.cfg.w → memRead t j = f j) : everyWord s (fun j v => v == f j) = (s.value == t.value) := by
  rw [Bool.eq_iff_iff, everyWord, List.all_eq_true]
  simp only [List.mem_range, beq_iff_eq]
  constructor
  · refine fun h => value_congr hc (words_ext (by rw [hs.1, ht.1, hc]) fun j hj => ?_)
    rw [hs.1] at hj
    rw [h j hj, hf j hj]
  · intro h j hj
    rw [memRead_congr (words_eq_of_value hs ht hc h), hf j hj]

/-- Full is what SETA leaves. -/
theorem all_eq_value {s : State} (h : s.Masked) :
    everyWord s (fun j v => v == wMask s.cfg j) = (s.value == 2 ^ s.cfg.n - 1) := by
  rw [← value_seta s]
  refine everyWord_eq_value_eq h (memWriteAll_masked s _) rfl fun j hj => ?_
  rw [memRead_memWriteAll s _ hj, ones_and_wMask]

/-- Empty is what reset leaves. -/
theorem none_eq_value {s : State} (h : s.Masked) : everyWord s (fun _ v => v == 0) = (s.value == 0) := by
  rw [← value_resetFor s.cfg]
  exact everyWord_eq_value_eq h (resetFor_masked _) rfl fun j _ => memRead_resetFor _ j

theorem any_eq_value {s : State} (h : s.Masked) : (firstWord s fun v => v != 0).isSome = (s.value != 0) := by
  rw [bne, ← none_eq_value h, everyWord, List.not_all_eq_any_not, firstWord, Bool.eq_iff_iff, List.find?_isSome,
    List.any_eq_true]
  rfl

theorem countBelow_add (a b : Nat) (f : Nat → Bool) :
    countBelow (a + b) f = countBelow a f + countBelow b fun i => f (a + i) := by
  rw [countBelow, List.range_add, List.countP_append, List.countP_map]
  rfl

theorem countBelow_congr {n : Nat} {f g : Nat → Bool} (h : ∀ i, i < n → f i = g i) :
    countBelow n f = countBelow n g :=
  List.countP_congr fun i hi => by rw [h i (List.mem_range.mp hi)]

/-- The 1 bits of the first `m` words are those of the first `m * WW` positions. -/
theorem sum_popcount_eq_countBelow (s : State) (m : Nat) :
    ((List.range m).map fun j => popcount s.cfg (memRead s j)).sum = countBelow (m * s.cfg.ww) s.bit := by
  induction m with
  | zero => simp [countBelow]
  | succ m ih =>
    have hword : popcount s.cfg (memRead s m) = countBelow s.cfg.ww fun i => s.bit (m * s.cfg.ww + i) :=
      countBelow_congr fun i hi => (bit_at_word s hi).symm
    rw [List.range_succ, List.map_append, List.sum_append, ih, Nat.succ_mul, countBelow_add, ← hword]
    simp

/-- No bit at or above N is counted. -/
theorem count_eq_value {s : State} (h : s.Masked) :
    ((List.range s.cfg.w).map fun j => popcount s.cfg (memRead s j)).sum = countBelow s.cfg.n s.value.testBit := by
  obtain ⟨k, hk⟩ := Nat.exists_eq_add_of_le s.cfg.n_bounds.2
  have habove : countBelow k (fun i => s.bit (s.cfg.n + i)) = 0 :=
    List.countP_eq_zero.mpr fun i _ => by simp [bit_of_ge h (Nat.le_add_right s.cfg.n i)]
  rw [sum_popcount_eq_countBelow, hk, countBelow_add, habove, Nat.add_zero, funext (testBit_value h)]

/-- `k` is the least position below N whose bit is `b`, or N where there is none. -/
def State.FirstBit (s : State) (b : Bool) (k : Nat) : Prop :=
  k ≤ s.cfg.n ∧ (k < s.cfg.n → s.bit k = b) ∧ ∀ q, q < k → s.bit q = !b

theorem leastOr_eq {n k : Nat} {f : Nat → Bool} (hk : k ≤ n) (hhit : k < n → f k = true)
    (hmiss : ∀ q, q < k → f q = false) : leastOr n f = k := by
  rcases Nat.lt_or_eq_of_le hk with hlt | rfl
  · rw [leastOr, find_range_eq_some_iff.mpr ⟨hlt, hhit hlt, hmiss⟩, Option.getD_some]
  · have hnone : (List.range k).find? f = none := by simpa using hmiss
    rw [leastOr, hnone, Option.getD_none]

theorem firstWord_eq_some_iff {s : State} {p : Word → Bool} {j : Nat} :
    firstWord s p = some j ↔ j < s.cfg.w ∧ p (memRead s j) = true ∧ ∀ i, i < j → p (memRead s i) = false :=
  find_range_eq_some_iff

theorem not_of_firstWord_eq_none {s : State} {p : Word → Bool} (h : firstWord s p = none) {j : Nat} (hj : j < s.cfg.w) :
    p (memRead s j) = false :=
  Bool.eq_false_iff.mpr (List.find?_eq_none.mp h j (List.mem_range.mpr hj))

/-- The least `b` bit of the word array is the least one of the first word that has one: words that the scan skips (`p` is
false) have none, and `least` finds it in the others. It stands at N at most, as all bits from N on are 0. -/
theorem firstBit_scan {s : State} (h : s.Masked) {b : Bool} {p : Word → Bool} {least : Word → Nat}
    (hskip : ∀ j, j < s.cfg.w → p (memRead s j) = false → ∀ i, i < s.cfg.ww → (memRead s j).getLsbD i = !b)
    (hhit : ∀ j, j < s.cfg.w → p (memRead s j) = true → least (memRead s j) < s.cfg.ww ∧
      (memRead s j).getLsbD (least (memRead s j)) = b ∧ ∀ i, i < least (memRead s j) → (memRead s j).getLsbD i = !b) :
    s.FirstBit b ((firstWord s p).elim s.cfg.n fun j => j * s.cfg.ww + least (memRead s j)) := by
  have hlow (q : Nat) : q % s.cfg.ww < s.cfg.ww := Nat.mod_lt q s.cfg.ww_pos
  cases hf : firstWord s p with
  | none =>
    refine ⟨Nat.le_refl _, fun hn => absurd hn (Nat.lt_irrefl _), fun q hq => ?_⟩
    rw [bit_eq_getLsbD]
    exact hskip _ (idxOf_lt hq) (not_of_firstWord_eq_none hf (idxOf_lt hq)) _ (hlow q)
  | some j =>
    obtain ⟨hj, hpj, hbefore⟩ := firstWord_eq_some_iff.mp hf
    obtain ⟨hlt, hbit, hbelow⟩ := hhit j hj hpj
    have hat : s.bit (j * s.cfg.ww + least (memRead s j)) = b := by rw [bit_at_word s hlt, hbit]
    have hmiss : ∀ q, q < j * s.cfg.ww + least (memRead s j) → s.bit q = !b := by
      intro q hq
      have hqj : q / s.cfg.ww < j + 1 := by
        rw [Nat.div_lt_iff_lt_mul s.cfg.ww_pos, Nat.succ_mul]
        omega
      rw [bit_eq_getLsbD]
      rcases Nat.lt_succ_iff_lt_or_eq.mp hqj with hlt' | heq
      · exact hskip _ (Nat.lt_trans hlt' hj) (hbefore _ hlt') _ (hlow q)
      · have hpos := Nat.div_add_mod' q s.cfg.ww
        rw [heq] at hpos ⊢
        exact hbelow _ (by omega)
    refine ⟨Nat.le_of_not_lt fun (hgt : s.cfg.n < j * s.cfg.ww + least (memRead s j)) => ?_, fun _ => hat, hmiss⟩
    have hb : b = true := by simpa [bit_of_ge h (Nat.le_refl _)] using (hmiss _ hgt).symm
    rw [bit_of_ge h (Nat.le_of_lt hgt), hb] at hat
    cases hat

theorem ffo_firstBit {s : State} (h : s.Masked) :
    s.FirstBit true ((firstWord s fun v => v != 0).elim s.cfg.n fun j => j * s.cfg.ww + ctz s.cfg (memRead s j)) := by
  refine firstBit_scan h (fun j _ hp i _ => ?_) fun j hj hp => ?_
  · rw [bne_eq_false_iff_eq.mp hp]
    exact BitVec.getLsbD_zero
  · obtain ⟨k, hk, hbit⟩ := exists_getLsbD_of_ne_zero (ones_of_wMask (h.2 j hj)) (bne_iff_ne.mp hp)
    exact ctz_spec hk hbit

theorem ffz_firstBit {s : State} (h : s.Masked) :
    s.FirstBit false ((firstWord s fun v => v != s.cfg.ones).elim s.cfg.n fun j =>
      j * s.cfg.ww + cto s.cfg (memRead s j)) := by
  refine firstBit_scan h (fun j _ hp i hi => ?_) fun j hj hp => ?_
  · rw [bne_eq_false_iff_eq.mp hp, Config.getLsbD_ones, decide_eq_true hi]
    rfl
  · obtain ⟨k, hk, hbit⟩ := exists_not_getLsbD_of_ne_ones (ones_of_wMask (h.2 j hj)) (bne_iff_ne.mp hp)
    exact cto_spec hk hbit

theorem leastOr_of_firstBit_true {s : State} (h : s.Masked) {k : Nat} (hk : s.FirstBit true k) :
    leastOr s.cfg.n s.value.testBit = k := by
  obtain ⟨hle, hhit, hmiss⟩ := hk
  rw [funext (testBit_value h)]
  exact leastOr_eq hle hhit hmiss

theorem leastOr_of_firstBit_false {s : State} (h : s.Masked) {k : Nat} (hk : s.FirstBit false k) :
    leastOr s.cfg.n (fun p => !s.value.testBit p) = k := by
  obtain ⟨hle, hhit, hmiss⟩ := hk
  refine leastOr_eq hle (fun hlt => ?_) fun q hq => ?_
  · rw [testBit_value h, hhit hlt, Bool.not_false]
  · rw [testBit_value h, hmiss q hq, Bool.not_false, Bool.not_true]

/-- The mask of the top word has the bits of V's top slice. -/
theorem msbMask_eq_lowOnes (c : Config) : c.msbMask = BitVec.ofNat 64 (2 ^ (c.n - (c.w - 1) * c.ww) - 1) := by
  refine BitVec.eq_of_getLsbD_eq fun i hi => ?_
  have htotal : c.w * c.ww = (c.w - 1) * c.ww + c.ww := by
    rw [← Nat.succ_mul, Nat.succ_eq_add_one, Nat.sub_add_cancel c.w_pos]
  have hle := c.n_bounds.2
  rw [Config.getLsbD_msbMask, getLsbD_lowOnes, ← Bool.decide_and, ← Bool.decide_and, decide_eq_decide]
  omega

/-! ## The word accesses in the integer view (notes/assumptions/8) -/

/-- A word is a slice of V. -/
theorem memRead_eq_slice {s : State} (h : s.Masked) {j : Nat} (hj : j < s.cfg.w) :
    memRead s j = BitVec.ofNat 64 (s.value / 2 ^ (j * s.cfg.ww) % 2 ^ s.cfg.ww) := by
  refine BitVec.eq_of_getLsbD_eq fun i hi => ?_
  rw [BitVec.getLsbD_ofNat, Nat.testBit_mod_two_pow, Nat.testBit_div_two_pow, testBit_value h, Nat.add_comm i]
  by_cases hw : i < s.cfg.ww
  · simp [hi, hw, bit_at_word s hw]
  · have hzero : (memRead s j).getLsbD i = false :=
      Bool.eq_false_iff.mpr fun hbit => hw (((masked_iff s).mp h).2 j hj i hbit).1
    simp [hw, hzero]

/-- With the `k` bits from `lo` on replaced by `d`, a number has the bits of `d` there and its own elsewhere. -/
theorem testBit_replaceSlice (v lo : Nat) {k d : Nat} (hd : d < 2 ^ k) (p : Nat) :
    (v % 2 ^ lo + d * 2 ^ lo + v / 2 ^ (lo + k) * 2 ^ (lo + k)).testBit p =
      if lo ≤ p ∧ p < lo + k then d.testBit (p - lo) else v.testBit p := by
  have hlow : v % 2 ^ lo < 2 ^ lo := Nat.mod_lt _ (Nat.two_pow_pos _)
  have hmid : 2 ^ lo * d + v % 2 ^ lo < 2 ^ (lo + k) := by
    calc 2 ^ lo * d + v % 2 ^ lo < 2 ^ lo * (d + 1) := by rw [Nat.mul_succ]; omega
      _ ≤ 2 ^ lo * 2 ^ k := Nat.mul_le_mul_left _ hd
      _ = 2 ^ (lo + k) := (Nat.pow_add ..).symm
  have hsum : v % 2 ^ lo + d * 2 ^ lo + v / 2 ^ (lo + k) * 2 ^ (lo + k)
      = 2 ^ (lo + k) * (v / 2 ^ (lo + k)) + (2 ^ lo * d + v % 2 ^ lo) := by ring
  rw [hsum, Nat.testBit_two_pow_mul_add _ hmid, Nat.testBit_two_pow_mul_add _ hlow]
  by_cases hlo : p < lo
  · rw [if_pos (by omega), if_pos hlo, if_neg (by omega), Nat.testBit_mod_two_pow, decide_eq_true hlo, Bool.true_and]
  · by_cases hhi : p < lo + k
    · rw [if_pos hhi, if_neg hlo, if_pos (by omega)]
    · rw [if_neg hhi, if_neg (by omega), Nat.testBit_div_two_pow, Nat.sub_add_cancel (by omega)]

/-- The slice is the word that the position lies in. -/
theorem testBit_intPutWord (b : IntBlock) (idx : Nat) {d p : Nat} (hd : d < 2 ^ b.cfg.ww) (hp : p < b.cfg.n) :
    (intPutWord b idx d).testBit p =
      if p / b.cfg.ww = idx then d.testBit (p % b.cfg.ww) else b.v.testBit p := by
  have hword : idx * b.cfg.ww ≤ p ∧ p < idx * b.cfg.ww + b.cfg.ww ↔ p / b.cfg.ww = idx := by
    rw [Nat.div_eq_iff b.cfg.ww_pos, Nat.add_sub_assoc b.cfg.ww_pos]
    have := b.cfg.ww_pos
    omega
  simp only [intPutWord, Nat.testBit_mod_two_pow, decide_eq_true hp, Bool.true_and, testBit_replaceSlice _ _ hd, hword]
  split
  · next e => rw [← e, Nat.mod_def, Nat.mul_comm]
  · rfl

theorem value_memWrite {s : State} (h : s.Masked) (idx : Nat) {d : Word} (hd : d.toNat < 2 ^ s.cfg.ww) :
    (memWrite s idx d).value = intPutWord s.intBlock idx d.toNat := by
  refine value_eq_of_bits_below (memWrite_masked h idx d) (Nat.mod_lt _ (Nat.two_pow_pos _)) fun p hp => ?_
  rw [bit_memWrite h.1 idx d hp, testBit_intPutWord s.intBlock idx hd hp, BitVec.testBit_toNat]
  congr 1
  exact (testBit_value h p).symm

/-! ## The refinement -/

/-- `exec` on the words of `s` answers a masked state, with the integer view and the response of the integer machine. -/
def Refines (i : Instr) (s : State) : Prop :=
  ∃ t, exec i s = .next t ∧ t.intBlock = (intExec i s.intBlock).1 ∧
    t.rsps = s.rsps ++ [(intExec i s.intBlock).2] ∧ t.cmds = s.cmds ∧ t.Masked

section
variable {s : State} {i : Instr}

/-- A command that writes no word refines when the responses agree. -/
theorem refines_of_read {r r' : Response} (hm : s.Masked) (hexec : exec i s = .next (respond s r))
    (hint : intExec i s.intBlock = (s.intBlock, r')) (hr : r = r') : Refines i s := by
  refine ⟨_, hexec, ?_, ?_, rfl, hm⟩ <;> rw [hint]
  · rfl
  · rw [respond_rsps, hr]

/-- A command that writes words and answers no data refines when the words written are masked and their V agrees. -/
theorem refines_of_write {ws : List Word} {v : Nat} (hexec : exec i s = .next (respond { s with words := ws } .done))
    (hint : intExec i s.intBlock = ({ s.intBlock with v := v }, .done)) (hm : ({ s with words := ws } : State).Masked)
    (hv : ({ s with words := ws } : State).value = v) : Refines i s := by
  refine ⟨_, hexec, ?_, ?_, rfl, hm⟩ <;> rw [hint]
  · rw [← hv]
    rfl
  · rfl

theorem intExec_of_halted {b : IntBlock} (h : b.fault = true) (i : Instr) : intExec i b = (b, .faulted) := if_pos h

/-- The integer machine faults where the machine on the words does. -/
theorem intExec_of_illegal {b : IntBlock} (hlive : b.fault = false) {i : Instr} (hl : legal b.cfg i = false) :
    intExec i b = intFault b (faultCause i) := by
  have hlive : ¬b.fault = true := Bool.eq_false_iff.mp hlive
  cases i
  case test | setb | rstb | flpb | rdw | wrw | ldi | lda =>
    exact (if_neg hlive).trans (if_neg (of_decide_eq_false hl))
  all_goals exact absurd hl Bool.noConfusion

theorem refines_of_halted (hm : s.Masked) (h : s.fault = true) (i : Instr) : Refines i s :=
  refines_of_read hm (exec_of_halted h i) (intExec_of_halted h i) rfl

theorem refines_of_illegal (hm : s.Masked) (hlive : s.fault = false) (hl : legal s.cfg i = false) : Refines i s := by
  refine ⟨_, exec_of_illegal hlive hl, ?_, ?_, rfl, hm⟩ <;> rw [intExec_of_illegal hlive hl] <;> rfl

/-- Within the contract the two machines run the two statements of one command, which agree by the lemmas above. -/
theorem refines_of_legal (hm : s.Masked) (hlive : s.fault = false) (hwf : i.wf s.cfg = true)
    (hl : legal s.cfg i = true) : Refines i s := by
  have hbit {p : Nat} (h : legal s.cfg (.test p) = true) (f : Nat → Nat → State) :=
    next_unlessHalted hlive (atBit_of_lt (of_decide_eq_true h) f)
  have hword {k : Nat} (h : legal s.cfg (.rdw k) = true) (b : State) :=
    next_unlessHalted hlive (atWord_of_lt (of_decide_eq_true h) b)
  have hnullary (b : State) := next_unlessHalted (b := b) hlive rfl
  have hint : ¬s.intBlock.fault = true := Bool.eq_false_iff.mp hlive
  have hchecked {p : Prop} [Decidable p] (h : decide p = true) (a b c : IntBlock × Response) :
      (if s.intBlock.fault then c else if p then a else b) = a := (if_neg hint).trans (if_pos (of_decide_eq_true h))
  cases i
  case test p => exact refines_of_read hm (hbit hl _) (hchecked hl _ _ _) (congrArg _ (testBit_value hm p).symm)
  case all => exact refines_of_read hm (hnullary _) (if_neg hint) (congrArg _ (all_eq_value hm))
  case any => exact refines_of_read hm (hnullary _) (if_neg hint) (congrArg _ (any_eq_value hm))
  case none => exact refines_of_read hm (hnullary _) (if_neg hint) (congrArg _ (none_eq_value hm))
  case count => exact refines_of_read hm (hnullary _) (if_neg hint) (congrArg _ (count_eq_value hm))
  case size => exact refines_of_read hm (hnullary _) (if_neg hint) rfl
  case ffo =>
    exact refines_of_read hm (hnullary _) (if_neg hint) (congrArg _ (leastOr_of_firstBit_true hm (ffo_firstBit hm)).symm)
  case ffz =>
    exact refines_of_read hm (hnullary _) (if_neg hint) (congrArg _ (leastOr_of_firstBit_false hm (ffz_firstBit hm)).symm)
  case getm => exact refines_of_read hm (hnullary _) (if_neg hint) (congrArg _ (msbMask_eq_lowOnes s.cfg))
  case rdw idx =>
    exact refines_of_read hm (hword hl _) (hchecked hl _ _ _) (congrArg _ (memRead_eq_slice hm (of_decide_eq_true hl)))
  case seta => exact refines_of_write (hnullary _) (if_neg hint) (memWriteAll_masked s _) (value_seta s)
  case rsta => exact refines_of_write (hnullary _) (if_neg hint) (rawWriteAll_zero_masked s) (value_rsta s)
  case flpa => exact refines_of_write (hnullary _) (if_neg hint) (memWriteAll_masked s _) (value_flpa hm)
  case setb p val =>
    have hp : p < s.cfg.n := of_decide_eq_true hl
    cases val
    · exact refines_of_write (hbit hl _) (hchecked hl _ _ _) (clearBit_masked hm hp) (value_clearBit hm hp)
    · exact refines_of_write (hbit hl _) (hchecked hl _ _ _) (setBit_masked hm hp) (value_setBit hm hp)
  case rstb p =>
    have hp : p < s.cfg.n := of_decide_eq_true hl
    exact refines_of_write (hbit hl _) (hchecked hl _ _ _) (clearBit_masked hm hp) (value_clearBit hm hp)
  case flpb p =>
    have hp : p < s.cfg.n := of_decide_eq_true hl
    exact refines_of_write (hbit hl _) (hchecked hl _ _ _) (flipBit_masked hm hp) (value_flipBit hm hp)
  case ldi imm =>
    have hn : s.cfg.n ≤ 64 := of_decide_eq_true hl
    exact refines_of_write (exec_ldi hlive hn imm) (hchecked hl _ _ _) (memWrite_masked hm 0 _) (value_ldi hm hn imm)
  case lda elems =>
    have hn : 64 < s.cfg.n := of_decide_eq_true hl
    exact refines_of_write (exec_lda hlive hn elems) (hchecked hl _ _ _) (memWriteAll_masked s _)
      (value_lda hn (beq_iff_eq.mp hwf))
  case wrw idx d =>
    obtain ⟨-, hd⟩ := Bool.and_eq_true_iff.mp hwf
    exact refines_of_write (hword hl _) (hchecked hl _ _ _) (memWrite_masked hm idx d)
      (value_memWrite hm idx (of_decide_eq_true hd))

end

/-! ## The statements -/

/-- Settles O50: a halted block refuses, a command outside the contract faults, and one within it agrees with its integer
statement. -/
theorem wordArrayRefinesTheIntegerView : Obligations.WordArrayRefinesTheIntegerView := by
  intro i s hm hwf
  cases hf : s.fault
  case true => exact refines_of_halted hm hf i
  case false =>
    cases hl : legal s.cfg i
    case true => exact refines_of_legal hm hf hwf hl
    case false => exact refines_of_illegal hm hf hl

/-- Settles O29: LDI replaces the only word and LDA every word, by values that depend on the operand and N alone. -/
theorem loadsOverwriteWithoutReading : Obligations.LoadsOverwriteWithoutReading := by
  refine ⟨fun s s' i hi hcfg hlive hlive' hlen hlen' hlegal => ?_, fun c imm elems => ?_⟩
  · obtain ⟨imm, rfl⟩ | ⟨elems, rfl⟩ := hi
    · have hn : s.cfg.n ≤ 64 := of_decide_eq_true hlegal
      refine ⟨_, _, exec_ldi hlive hn imm, exec_ldi hlive' (hcfg ▸ hn) imm, ?_, hlive, rfl⟩
      rw [respond_words, words_ldi hlen hn, respond_words, words_ldi hlen' (hcfg ▸ hn), hcfg]
    · have hn : 64 < s.cfg.n := of_decide_eq_true hlegal
      refine ⟨_, _, exec_lda hlive hn elems, exec_lda hlive' (hcfg ▸ hn) elems, ?_, hlive, rfl⟩
      rw [respond_words, memWriteAll_words, respond_words, memWriteAll_words, hcfg]
  · rw [legal, legal, ← decide_not, decide_eq_decide]
    exact Nat.not_lt.symm

/-- Settles O30: the only word is the top word; above N = 64 the mask of every word below the top keeps all 64 bits. -/
theorem loadsStoreTheElementsUnderTheMask : Obligations.LoadsStoreTheElementsUnderTheMask := by
  refine ⟨fun s imm hlive hlen hn => ?_, fun s elems hlive _ hn _ => ?_⟩
  · rw [exec_ldi hlive hn, ← words_ldi hlen hn imm]
    rfl
  · refine ⟨_, exec_lda hlive hn elems, rfl, by simp, fun j hj => ?_, ?_⟩
    · rw [memRead_respond, memRead_memWriteAll s _ (by omega), wMask_below_top (by omega), and_ones_of_gt hn]
    · rw [memRead_respond, memRead_memWriteAll s _ (Nat.sub_lt s.cfg.w_pos Nat.one_pos), wMask_top, Nat.sub_self]

/-- Settles O31: below N the bits after a load are those of the bus. -/
theorem loadsTakeTheBusModuloTwoToN : Obligations.LoadsTakeTheBusModuloTwoToN := by
  refine fun s wdata hlive hm => ⟨fun hn => ?_, fun hn _ => ?_⟩
  · refine ⟨_, exec_ldi hlive hn _, value_ldi hm hn _, fun p hp => (bit_ldi hm.1 hn _ hp).trans ?_⟩
    rw [ldiImm, getLsbD_busSlice _ _ (Nat.lt_of_lt_of_le hp hn), Nat.mul_zero, Nat.zero_add]
  · exact ⟨_, exec_lda hlive hn _, value_lda_bus hn wdata, fun p hp => bit_lda_bus hn wdata hp⟩

/-- Settles O32; where N is no multiple of 64, a first element with bit 63 alone has its most significant bit cut off. -/
theorem topBitAfterLda : Obligations.TopBitAfterLda := by
  intro s hlive _ hn
  refine ⟨fun elems _ => ⟨_, exec_lda hlive hn elems, topBit_lda hn elems⟩, fun h => ?_, fun hmod elems _ => ?_⟩
  · have hlen : (bitMask 63 :: List.replicate (s.cfg.w - 1) (0 : Word)).length = s.cfg.w := by
      have := s.cfg.w_pos
      rw [List.length_cons, List.length_replicate]
      omega
    obtain ⟨t, ht, hbit⟩ := h _ hlen
    obtain rfl := Host.Outcome.next.inj ((exec_lda hlive hn _).symm.trans ht)
    have h63 : (bitMask 63).getLsbD 63 = true := by decide
    have htop : (bitMask 63).getLsbD ((s.cfg.n - 1) % 64) = (bitMask 63).getLsbD 63 :=
      (topBit_lda hn _).symm.trans hbit
    rw [h63, getLsbD_bitMask, Bool.and_eq_true, decide_eq_true_eq, decide_eq_true_eq] at htop
    omega
  · have htop : (s.cfg.n - 1) % 64 = 63 := by omega
    exact ⟨_, exec_lda hlive hn elems, htop ▸ topBit_lda hn elems⟩

end Sys2Proof.Machine

end

/-! SUPPORT and PROOFS. The statements of 41_queries.md: the answer of every query, the laws between the answers, and that no
query writes a word. -/

section

namespace Sys2Proof.Machine

/-! ## Scans of the words (41_queries.md R92 to R94) -/

theorem everyWord_iff {s : State} {p : Nat → Word → Bool} :
    everyWord s p = true ↔ ∀ j, j < s.cfg.w → p j (memRead s j) = true := by
  simp [everyWord]

theorem firstWord_isSome_iff {s : State} {p : Word → Bool} :
    (firstWord s p).isSome = true ↔ ∃ j, j < s.cfg.w ∧ p (memRead s j) = true := by
  simp [firstWord]

/-- Every word equals its mask: ONES below the top word, MSB_MASK in it. -/
theorem everyWord_eq_wMask_iff {s : State} :
    everyWord s (fun j v => v == wMask s.cfg j) = true ↔
      (∀ j, j < s.cfg.w - 1 → memRead s j = s.cfg.ones) ∧ memRead s (s.cfg.w - 1) = s.cfg.msbMask := by
  have hpos := s.cfg.w_pos
  simp only [everyWord_iff, beq_iff_eq]
  constructor
  · refine fun h => ⟨fun j hj => ?_, ?_⟩
    · rw [h j (by omega), wMask_below_top (by omega)]
    · rw [h _ (by omega), wMask_top]
  · rintro ⟨hbelow, htop⟩ j hj
    by_cases e : j = s.cfg.w - 1
    · rw [e, htop, wMask_top]
    · rw [hbelow j (by omega), wMask_below_top e]

/-! ## Empty and full, bit by bit -/

theorem value_eq_iff_bits_below {s : State} (h : s.Masked) {v : Nat} (hv : v < 2 ^ s.cfg.n) :
    s.value = v ↔ ∀ p, p < s.cfg.n → s.bit p = v.testBit p :=
  ⟨fun e p _ => by rw [← testBit_value h, e], value_eq_of_bits_below h hv⟩

theorem value_eq_zero_iff {s : State} (h : s.Masked) : s.value = 0 ↔ ∀ p, p < s.cfg.n → s.bit p = false := by
  simp [value_eq_iff_bits_below h (Nat.two_pow_pos _)]

theorem value_eq_full_iff {s : State} (h : s.Masked) :
    s.value = 2 ^ s.cfg.n - 1 ↔ ∀ p, p < s.cfg.n → s.bit p = true := by
  rw [value_eq_iff_bits_below h (Nat.sub_lt (Nat.two_pow_pos _) Nat.one_pos)]
  refine forall₂_congr fun p hp => ?_
  rw [Nat.testBit_two_pow_sub_one, decide_eq_true hp]

/-! ## Counting (41_queries.md R95) -/

theorem countBelow_eq_card (n : Nat) (f : Nat → Bool) :
    countBelow n f = ((Finset.range n).filter fun p => f p = true).card := by
  rw [← Nat.count_eq_card_filter_range]
  simp [countBelow, Nat.count]

theorem countBelow_le (n : Nat) (f : Nat → Bool) : countBelow n f ≤ n :=
  List.countP_le_length.trans_eq List.length_range

theorem countBelow_eq_iff {n : Nat} {f : Nat → Bool} : countBelow n f = n ↔ ∀ p, p < n → f p = true := by
  simpa [countBelow] using List.countP_eq_length (p := f) (l := List.range n)

/-! ## Scans of the bits (41_queries.md R97, R98) -/

section
variable {s : State} {b : Bool} {k : Nat}

/-- The scan answers N exactly where no bit below N is a hit. -/
theorem State.FirstBit.eq_n_iff (hk : s.FirstBit b k) : k = s.cfg.n ↔ ∀ p, p < s.cfg.n → s.bit p = !b := by
  obtain ⟨hle, hhit, hmiss⟩ := hk
  refine ⟨fun e => e ▸ hmiss, fun h => Nat.le_antisymm hle (Nat.le_of_not_lt fun hlt => ?_)⟩
  exact (Bool.eq_not_self b).mp ((hhit hlt).symm.trans (h k hlt))

/-- A scan that does not answer N answers the least hit in V. -/
theorem State.FirstBit.least_of_ne_n (hm : s.Masked) (hk : s.FirstBit b k) (hne : k ≠ s.cfg.n) :
    k < s.cfg.n ∧ s.value.testBit k = b ∧ ∀ q, q < k → s.value.testBit q = !b := by
  obtain ⟨hle, hhit, hmiss⟩ := hk
  have hlt := Nat.lt_of_le_of_ne hle hne
  simp only [testBit_value hm]
  exact ⟨hlt, hhit hlt, hmiss⟩

theorem State.FirstBit.ffo_eq_n_iff (hm : s.Masked) (hk : s.FirstBit true k) : k = s.cfg.n ↔ s.value = 0 :=
  hk.eq_n_iff.trans (value_eq_zero_iff hm).symm

theorem State.FirstBit.ffz_eq_n_iff (hm : s.Masked) (hk : s.FirstBit false k) :
    k = s.cfg.n ↔ s.value = 2 ^ s.cfg.n - 1 :=
  hk.eq_n_iff.trans (value_eq_full_iff hm).symm

end

/-! ## The mask of the top word (00_scope.md R6) -/

/-- The only word holds all N bits. -/
theorem msbMask_of_le {c : Config} {n : Nat} (hn : c.n = n) (h : n ≤ 64) :
    c.msbMask = BitVec.ofNat 64 (2 ^ n - 1) := by
  subst hn
  rw [msbMask_eq_lowOnes, Config.w_eq_one h, Nat.sub_self, Nat.zero_mul, Nat.sub_zero]

/-- Above one word, the top word holds the bits from the last multiple of 64 below N on. -/
theorem msbMask_of_gt {c : Config} {n : Nat} (hn : c.n = n) (h : 64 < n) :
    c.msbMask = BitVec.ofNat 64 (2 ^ (n - ((n + 63) / 64 - 1) * 64) - 1) := by
  subst hn
  rw [msbMask_eq_lowOnes, Config.ww_eq_of_gt h, Config.w]

/-! ## The answer of each query in a block that is not halted -/

section
variable {s : State}

theorem exec_test (hlive : s.fault = false) (hm : s.Masked) {pos : Nat} (hp : pos < s.cfg.n) :
    exec (.test pos) s = .next (respond s (.ofBit (s.value.testBit pos))) := by
  rw [testBit_value hm]
  exact next_unlessHalted hlive (atBit_of_lt hp _)

theorem exec_all (hlive : s.fault = false) (hm : s.Masked) :
    exec .all s = .next (respond s (.ofBit (s.value == 2 ^ s.cfg.n - 1))) := by
  rw [← all_eq_value hm]
  exact next_unlessHalted hlive rfl

theorem exec_any (hlive : s.fault = false) (hm : s.Masked) : exec .any s = .next (respond s (.ofBit (s.value != 0))) := by
  rw [← any_eq_value hm]
  exact next_unlessHalted hlive rfl

theorem exec_none (hlive : s.fault = false) (hm : s.Masked) :
    exec .none s = .next (respond s (.ofBit (s.value == 0))) := by
  rw [← none_eq_value hm]
  exact next_unlessHalted hlive rfl

theorem exec_count (hlive : s.fault = false) (hm : s.Masked) :
    exec .count s = .next (respond s (.ofIdx (countBelow s.cfg.n s.value.testBit))) := by
  rw [← count_eq_value hm]
  exact next_unlessHalted hlive rfl

theorem exec_size (hlive : s.fault = false) : exec .size s = .next (respond s (.ofIdx s.cfg.n)) :=
  next_unlessHalted hlive rfl

theorem exec_ffo (hlive : s.fault = false) (hm : s.Masked) :
    ∃ k, exec .ffo s = .next (respond s (.ofIdx k)) ∧ s.FirstBit true k :=
  ⟨_, next_unlessHalted hlive rfl, ffo_firstBit hm⟩

theorem exec_ffz (hlive : s.fault = false) (hm : s.Masked) :
    ∃ k, exec .ffz s = .next (respond s (.ofIdx k)) ∧ s.FirstBit false k :=
  ⟨_, next_unlessHalted hlive rfl, ffz_firstBit hm⟩

theorem exec_getm (hlive : s.fault = false) : exec .getm s = .next (respond s (.ofWord s.cfg.msbMask)) :=
  next_unlessHalted hlive rfl

end

/-! ## The commands with op[4] = 0 (41_queries.md R90, 30_encoding.md R65) -/

/-- Within the contract a command with op[4] = 0 only answers. -/
theorem exec_readOnly_of_legal {s : State} (hlive : s.fault = false) {i : Instr} (hop : i.opcode < 16)
    (hl : legal s.cfg i = true) : ∃ r, exec i s = .next (respond s r) := by
  cases i
  case test p => exact ⟨_, next_unlessHalted hlive (atBit_of_lt (of_decide_eq_true hl) _)⟩
  case rdw idx => exact ⟨_, next_unlessHalted hlive (atWord_of_lt (of_decide_eq_true hl) _)⟩
  case all | any | none | count | size | ffo | ffz | getm => exact ⟨_, next_unlessHalted hlive rfl⟩
  all_goals exact absurd hop (by simp [Instr.opcode])

/-- A command with op[4] = 0 only answers, or takes a fault in a block that is not halted. -/
theorem exec_readOnly {i : Instr} (hop : i.opcode < 16) (s : State) :
    (∃ r, exec i s = .next (respond s r)) ∨ s.fault = false ∧ ∃ cause, exec i s = .next (takeFault s cause) := by
  cases hf : s.fault
  case true => exact .inl ⟨_, exec_of_halted hf i⟩
  case false =>
    cases hl : legal s.cfg i
    case true => exact .inl (exec_readOnly_of_legal hf hop hl)
    case false => exact .inr ⟨rfl, _, exec_of_illegal hf hl⟩

/-! ## The statements -/

/-- Settles O33: the extracted bit is the bit of V. -/
theorem testAnswersTheBit : Obligations.TestAnswersTheBit :=
  fun _ _ hlive hm hp => exec_test hlive hm hp

/-- Settles O34: the scans range over all W words, the top one included. -/
theorem booleanQueriesCompareTheWords : Obligations.BooleanQueriesCompareTheWords := by
  intro s hlive
  refine ⟨_, _, _, next_unlessHalted hlive rfl, next_unlessHalted hlive rfl, next_unlessHalted hlive rfl,
    everyWord_eq_wMask_iff, ?_, ?_⟩
  · simp only [firstWord_isSome_iff, bne_iff_ne]
  · simp only [everyWord_iff, beq_iff_eq]

/-- Settles O35: the bits of the words are counted and scanned, and none of them is set at or above N. -/
theorem countAndScansAnswerAboutTheBits : Obligations.CountAndScansAnswerAboutTheBits := by
  intro s hlive hm
  obtain ⟨ffo, hffo, hone⟩ := exec_ffo hlive hm
  obtain ⟨ffz, hffz, hzero⟩ := exec_ffz hlive hm
  refine ⟨_, ffo, ffz, exec_count hlive hm, hffo, hffz, ?_, hone, hzero⟩
  rw [countBelow_eq_card, funext (testBit_value hm)]

/-- Settles O37: empty, full and the two scans' sentinel N are each a statement about all bits below N. -/
theorem queryLawsInTheIntegerView : Obligations.QueryLawsInTheIntegerView := by
  intro s hlive hm
  obtain ⟨ffo, hffo, hone⟩ := exec_ffo hlive hm
  obtain ⟨ffz, hffz, hzero⟩ := exec_ffz hlive hm
  have hempty := hone.ffo_eq_n_iff hm
  have hfull := hzero.ffz_eq_n_iff hm
  refine ⟨s.value != 0, s.value == 0, s.value == 2 ^ s.cfg.n - 1, countBelow s.cfg.n s.value.testBit, ffo, ffz,
    exec_any hlive hm, exec_none hlive hm, exec_all hlive hm, exec_count hlive hm, hffo, hffz, exec_size hlive,
    fun p hp => exec_test hlive hm hp, bne_iff_ne, (Bool.not_not _).symm, beq_iff_eq, ?_, countBelow_eq_card _ _,
    countBelow_le _ _, hempty.mpr, fun hne => (hone.least_of_ne_n hm (mt hempty.mp hne)).2, hfull.mpr,
    fun hne => hzero.least_of_ne_n hm (mt hfull.mp hne), hempty.trans beq_iff_eq.symm, hfull.trans beq_iff_eq.symm⟩
  rw [beq_iff_eq, value_eq_full_iff hm, countBelow_eq_iff, funext (testBit_value hm)]

/-- Settles O38: a command that leaves FAULT as it was took no fault in a live block, so it only answered. -/
theorem readOnlyOpcodesChangeNoWord : Obligations.ReadOnlyOpcodesChangeNoWord := by
  intro i s t hop ht
  obtain ⟨r, hr⟩ | ⟨hlive, cause, hc⟩ := exec_readOnly hop s
  · obtain rfl := Host.Outcome.next.inj (ht.symm.trans hr)
    exact ⟨rfl, rfl, rfl, fun _ => ⟨r, rfl⟩⟩
  · obtain rfl := Host.Outcome.next.inj (ht.symm.trans hc)
    exact ⟨rfl, rfl, rfl, fun h => absurd (h.trans hlive) Bool.noConfusion⟩

/-- Settles O36: the listed masks are 2^N - 1 up to N = 64 and one bit for N = 65. -/
theorem sizeAndGetmAnswerConstants : Obligations.SizeAndGetmAnswerConstants := by
  refine ⟨fun s hlive => ⟨exec_size hlive, exec_getm hlive⟩, fun c i => ?_, fun c =>
    ⟨(msbMask_of_le · (by decide)), (msbMask_of_le · (by decide)), (msbMask_of_le · (by decide)),
      (msbMask_of_gt · (by decide))⟩⟩
  rw [Config.getLsbD_msbMask, Bool.and_eq_true, decide_eq_true_eq, decide_eq_true_eq]

end Sys2Proof.Machine

end

/-! SUPPORT and PROOFS. The statements of 42_mutators.md: the invariant that every command keeps, what each mutator writes, and
the laws between the mutators and the queries. -/

section

namespace Sys2Proof.Machine

/-! ## What every step keeps -/

/-- What does not depend on the moves still to come and is kept by a reset, by every command and by a reserved opcode is kept by
every step. -/
theorem step_keeps {P : State → Prop} (hcmds : ∀ s rest, P s → P { s with cmds := rest })
    (hreset : ∀ s, P s → P (hardReset s)) (hexec : ∀ i s t, P s → exec i s = .next t → P t)
    (hillegal : ∀ s, P s → P (illegalOpcode s)) {s t : State} (hs : P s) (ht : step s = .next t) : P t := by
  obtain ⟨-, h⟩ | ⟨rest, -, h⟩ | ⟨m, rest, i, -, -, h⟩ | ⟨m, rest, e, -, -, h⟩ := step_cases s
  · obtain rfl := Host.Outcome.next.inj (h.symm.trans ht)
    exact hs
  · obtain rfl := Host.Outcome.next.inj (h.symm.trans ht)
    exact hreset _ (hcmds s rest hs)
  · exact hexec i _ t (hcmds s rest hs) (h.symm.trans ht)
  · obtain rfl := Host.Outcome.next.inj (h.symm.trans ht)
    exact hillegal _ (hcmds s rest hs)

/-! ## The mutators in a block that is not halted (42_mutators.md R111 to R116) -/

/-- `t` is `s` after a command that completes without data and leaves bit `pos` at `b`, every other bit and word as it was. -/
structure BitWritten (s : State) (pos : Nat) (b : Bool) (t : State) : Prop where
  frame : t = { s with words := t.words, rsps := s.rsps ++ [.done] }
  masked : t.Masked
  bit_eq : ∀ q, t.bit q = if q = pos then b else s.bit q
  word_eq : ∀ j, j ≠ pos / s.cfg.ww → memRead t j = memRead s j

section
variable {s t : State} {pos : Nat} {b : Bool}

theorem BitWritten.cfg_eq (h : BitWritten s pos b t) : t.cfg = s.cfg := by
  rw [h.frame]

theorem BitWritten.fault_eq (h : BitWritten s pos b t) : t.fault = s.fault := by
  rw [h.frame]

theorem BitWritten.bit_self (h : BitWritten s pos b t) : t.bit pos = b := by
  rw [h.bit_eq, if_pos rfl]

theorem BitWritten.bit_other (h : BitWritten s pos b t) {q : Nat} (hq : q ≠ pos) : t.bit q = s.bit q := by
  rw [h.bit_eq, if_neg hq]

end

section
variable {s : State}

theorem exec_seta (hlive : s.fault = false) :
    exec .seta s = .next (respond (memWriteAll s fun _ => s.cfg.ones) .done) :=
  next_unlessHalted hlive rfl

theorem exec_rsta (hlive : s.fault = false) : exec .rsta s = .next (respond (rawWriteAll s fun _ => 0) .done) :=
  next_unlessHalted hlive rfl

theorem exec_flpa (hlive : s.fault = false) :
    exec .flpa s = .next (respond (memWriteAll s fun j => notWord s.cfg (memRead s j)) .done) :=
  next_unlessHalted hlive rfl

/-- A raw write of a word that differs from the old one in bit `pos` at most. -/
theorem bitWritten_rawWrite (hm : s.Masked) {pos : Nat} (hp : pos < s.cfg.n) {v : Word}
    (hv : ∀ i, i ≠ pos % s.cfg.ww → v.getLsbD i = (memRead s (pos / s.cfg.ww)).getLsbD i) :
    BitWritten s pos (v.getLsbD (pos % s.cfg.ww)) (respond (rawWrite s (pos / s.cfg.ww) v) .done) where
  frame := rfl
  masked := rawWrite_one_masked hm hp v hv
  bit_eq q := bit_rawWrite_one hm hp v q hv
  word_eq _ hj := memRead_rawWrite_other s v hj

theorem exec_setb (hlive : s.fault = false) (hm : s.Masked) {pos : Nat} (hp : pos < s.cfg.n) (val : Bool) :
    ∃ t, exec (.setb pos val) s = .next t ∧ BitWritten s pos val t := by
  refine ⟨_, next_unlessHalted hlive (atBit_of_lt hp _), ?_⟩
  cases val
  · have h := bitWritten_rawWrite hm hp fun _ => getLsbD_clear_other hm (idxOf_lt hp)
    rwa [BitVec.getLsbD_and, getLsbD_notWord, getLsbD_bitMask_mod, Bool.not_true, Bool.and_false, Bool.and_false] at h
  · have h := bitWritten_rawWrite hm hp fun _ => getLsbD_or_bitMask_other _
    rwa [BitVec.getLsbD_or, getLsbD_bitMask_mod, Bool.or_true] at h

/-- RSTB is SETB with 0 (42_mutators.md R114). -/
theorem exec_rstb_eq (s : State) (pos : Nat) : exec (.rstb pos) s = exec (.setb pos false) s := rfl

theorem exec_rstb (hlive : s.fault = false) (hm : s.Masked) {pos : Nat} (hp : pos < s.cfg.n) :
    ∃ t, exec (.rstb pos) s = .next t ∧ BitWritten s pos false t :=
  exec_rstb_eq s pos ▸ exec_setb hlive hm hp false

theorem exec_flpb (hlive : s.fault = false) (hm : s.Masked) {pos : Nat} (hp : pos < s.cfg.n) :
    ∃ t, exec (.flpb pos) s = .next t ∧ BitWritten s pos (!s.bit pos) t := by
  refine ⟨_, next_unlessHalted hlive (atBit_of_lt hp _), ?_⟩
  have h := bitWritten_rawWrite hm hp fun _ => getLsbD_xor_bitMask_other _
  rwa [BitVec.getLsbD_xor, getLsbD_bitMask_mod, Bool.xor_true, ← bit_eq_getLsbD] at h

/-! ## The masking invariant (42_mutators.md R117) -/

/-- Within the contract: a command with op[4] = 0 writes nothing, each other one writes words within their masks. -/
theorem exec_masked_of_legal (hlive : s.fault = false) (hm : s.Masked) {i : Instr} (hl : legal s.cfg i = true) :
    ∃ t, exec i s = .next t ∧ t.Masked := by
  cases i
  case seta => exact ⟨_, exec_seta hlive, memWriteAll_masked s _⟩
  case rsta => exact ⟨_, exec_rsta hlive, rawWriteAll_zero_masked s⟩
  case flpa => exact ⟨_, exec_flpa hlive, memWriteAll_masked s _⟩
  case setb pos val => exact (exec_setb hlive hm (of_decide_eq_true hl) val).imp fun _ ⟨ht, h⟩ => ⟨ht, h.masked⟩
  case rstb pos => exact (exec_rstb hlive hm (of_decide_eq_true hl)).imp fun _ ⟨ht, h⟩ => ⟨ht, h.masked⟩
  case flpb pos => exact (exec_flpb hlive hm (of_decide_eq_true hl)).imp fun _ ⟨ht, h⟩ => ⟨ht, h.masked⟩
  case ldi imm => exact ⟨_, exec_ldi hlive (of_decide_eq_true hl) imm, memWrite_masked hm 0 _⟩
  case lda elems => exact ⟨_, exec_lda hlive (of_decide_eq_true hl) elems, memWriteAll_masked s _⟩
  case wrw idx d =>
    exact ⟨_, next_unlessHalted hlive (atWord_of_lt (of_decide_eq_true hl) _), memWrite_masked hm idx d⟩
  all_goals
    obtain ⟨r, ht⟩ := exec_readOnly_of_legal hlive (by simp [Instr.opcode]) hl
    exact ⟨_, ht, hm⟩

/-- A command is refused, takes a fault, or is within the contract of a block that is not halted. -/
theorem exec_cases {t : State} {i : Instr} (ht : exec i s = .next t) :
    (s.fault = true ∧ t = refuse s) ∨ (s.fault = false ∧ t = takeFault s (faultCause i)) ∨
      (s.fault = false ∧ legal s.cfg i = true) := by
  cases hf : s.fault
  case true => exact .inl ⟨rfl, Host.Outcome.next.inj (ht.symm.trans (exec_of_halted hf i))⟩
  case false =>
    cases hl : legal s.cfg i
    case true => exact .inr (.inr ⟨rfl, rfl⟩)
    case false => exact .inr (.inl ⟨rfl, Host.Outcome.next.inj (ht.symm.trans (exec_of_illegal hf hl))⟩)

/-- A refusal and a fault write no word. -/
theorem exec_masked {t : State} {i : Instr} (hm : s.Masked) (ht : exec i s = .next t) : t.Masked := by
  obtain ⟨-, rfl⟩ | ⟨-, rfl⟩ | ⟨hlive, hl⟩ := exec_cases ht
  · exact hm
  · exact hm
  · obtain ⟨u, hu, hmu⟩ := exec_masked_of_legal hlive hm hl
    rwa [Host.Outcome.next.inj (ht.symm.trans hu)]

theorem illegalOpcode_masked (hm : s.Masked) : (illegalOpcode s).Masked := by
  cases hf : s.fault
  · rwa [illegalOpcode, unlessHalted_of_live hf]
  · rwa [illegalOpcode, unlessHalted_of_halted hf]

theorem step_masked {t : State} (hm : s.Masked) (ht : step s = .next t) : t.Masked :=
  step_keeps (P := State.Masked) (fun _ _ h => h) (fun s _ => resetFor_masked s.cfg) (fun _ _ _ => exec_masked)
    (fun _ => illegalOpcode_masked) hm ht

/-! ## The machine's invariant (10_state.md R26, 30_encoding.md R70, 70_reset_and_hazards.md R169) -/

theorem State.Inv.masked (hs : s.Inv) : s.Masked := hs.1

theorem State.Inv.causeAgrees (hs : s.Inv) : s.CauseAgrees := hs.2.1

/-- An answer that fits its ports and says fault only in a halted block keeps the invariant. -/
theorem inv_of_answer {t : State} {r : Response} (hs : s.Inv) (hcfg : t.cfg = s.cfg) (hrsps : t.rsps = s.rsps ++ [r])
    (hm : t.Masked) (hcause : t.CauseAgrees) (hfault : t.fault = (s.fault || r.fault)) (hfits : r.Fits s.cfg) :
    t.Inv := by
  obtain ⟨-, -, hrun, hall⟩ := hs
  refine ⟨hm, hcause, ?_, ?_⟩
  · simp [State.RunAgrees, hfault, hrsps, hrun, or_and_right, exists_or]
  · rw [hrsps, hcfg]
    exact List.forall_mem_append.mpr ⟨hall, List.forall_mem_singleton.mpr hfits⟩

theorem fits_faulted (c : Config) : Response.faulted.Fits c :=
  ⟨Nat.zero_le _, BitVec.zero_and, fun _ => rfl⟩

theorem refuse_inv (hs : s.Inv) (hf : s.fault = true) : (refuse s).Inv :=
  inv_of_answer (r := .faulted) hs rfl rfl hs.masked hs.causeAgrees (by simp [hf, Response.faulted]) (fits_faulted _)

theorem takeFault_inv (hs : s.Inv) {cause : FCause} (hc : cause ≠ .none) : (takeFault s cause).Inv :=
  inv_of_answer (r := .faulted) hs rfl rfl hs.masked (by simp [State.CauseAgrees, hc]) (by simp [Response.faulted])
    (fits_faulted _)

theorem illegalOpcode_inv (hs : s.Inv) : (illegalOpcode s).Inv := by
  cases hf : s.fault
  · rw [illegalOpcode, unlessHalted_of_live hf]
    exact takeFault_inv hs nofun
  · rw [illegalOpcode, unlessHalted_of_halted hf]
    exact refuse_inv hs hf

theorem faultCause_ne_none (i : Instr) : faultCause i ≠ .none := by
  unfold faultCause
  split <;> nofun

theorem exec_rdw (hlive : s.fault = false) {idx : Nat} (hi : idx < s.cfg.w) :
    exec (.rdw idx) s = .next (respond s (.ofWord (memRead s idx))) :=
  next_unlessHalted hlive (atWord_of_lt hi _)

theorem fits_ofIdx {c : Config} {k : Nat} (hk : k ≤ c.n) : (Response.ofIdx k).Fits c :=
  ⟨hk, BitVec.zero_and, nofun⟩

theorem fits_ofWord {c : Config} {j : Nat} {v : Word} (hv : v &&& ~~~wMask c j = 0) : (Response.ofWord v).Fits c :=
  ⟨Nat.zero_le _, ones_of_wMask hv, nofun⟩

theorem fits_of_noData {c : Config} {r : Response} (hf : r.fault = false) (hidx : r.idx = 0) (hword : r.word = 0) :
    r.Fits c := by
  simp [Response.Fits, hf, hidx, hword]

/-- A command within the contract answers no fault, no index above N (COUNT, SIZE, FFO, FFZ) and no word outside a mask (GETM,
RDW). -/
theorem exec_fits_of_legal (hlive : s.fault = false) (hm : s.Masked) {i : Instr} (hl : legal s.cfg i = true) :
    ∃ ws r, exec i s = .next (respond { s with words := ws } r) ∧ r.fault = false ∧ r.Fits s.cfg := by
  cases i
  case count => exact ⟨_, _, exec_count hlive hm, rfl, fits_ofIdx (countBelow_le _ _)⟩
  case size => exact ⟨_, _, exec_size hlive, rfl, fits_ofIdx (Nat.le_refl _)⟩
  case ffo =>
    obtain ⟨k, ht, hk, -⟩ := exec_ffo hlive hm
    exact ⟨_, _, ht, rfl, fits_ofIdx hk⟩
  case ffz =>
    obtain ⟨k, ht, hk, -⟩ := exec_ffz hlive hm
    exact ⟨_, _, ht, rfl, fits_ofIdx hk⟩
  case getm =>
    refine ⟨_, _, exec_getm hlive, rfl, fits_ofWord (j := s.cfg.w - 1) ?_⟩
    rw [wMask_top, BitVec.and_not_self]
  case rdw idx =>
    have hi : idx < s.cfg.w := of_decide_eq_true hl
    exact ⟨_, _, exec_rdw hlive hi, rfl, fits_ofWord (hm.2 idx hi)⟩
  all_goals
    obtain ⟨ws, r, ht, hf, -, hidx, hword⟩ := exec_of_legal hlive hl
    exact ⟨ws, r, ht, hf, fits_of_noData hf (hidx (by simp [Instr.opcode])) (hword (by simp [Instr.opcode]))⟩

theorem exec_inv {t : State} {i : Instr} (hs : s.Inv) (ht : exec i s = .next t) : t.Inv := by
  obtain ⟨hf, rfl⟩ | ⟨-, rfl⟩ | ⟨hlive, hl⟩ := exec_cases ht
  · exact refuse_inv hs hf
  · exact takeFault_inv hs (faultCause_ne_none i)
  · obtain ⟨ws, r, hu, hr, hfits⟩ := exec_fits_of_legal hlive hs.masked hl
    have hm := exec_masked hs.masked hu
    obtain rfl := Host.Outcome.next.inj (hu.symm.trans ht)
    exact inv_of_answer hs rfl rfl hm hs.causeAgrees (by simp [hr]) hfits

theorem step_cfg {t : State} (ht : step s = .next t) : t.cfg = s.cfg := by
  refine step_keeps (P := fun u => u.cfg = s.cfg) (fun _ _ h => h) (fun _ h => h) (fun i u v hu hv => ?_) (fun u hu => ?_)
    rfl ht
  · obtain ⟨v', hv', hcfg, -⟩ := exec_answers i u
    obtain rfl := Host.Outcome.next.inj (hv'.symm.trans hv)
    exact hcfg.trans hu
  · exact (unlessHalted_answered (takeFault_answered u .illegalOp)).1.trans hu

end

/-! ## Two commands in a row, and a block by its V -/

theorem execList_pair {s t u : State} {i j : Instr} (hi : exec i s = .next t) (hj : exec j t = .next u) :
    execList [i, j] s = .next u := by
  simp [execList, hi, hj]

/-- A block of the instance `c` that is not halted and within its masks, with `v` for its V. -/
structure State.Holds (s : State) (c : Config) (v : Nat) : Prop where
  cfg_eq : s.cfg = c
  live : s.fault = false
  masked : s.Masked
  value_eq : s.value = v

theorem exec_seta_holds {s : State} (hlive : s.fault = false) :
    ∃ t, exec .seta s = .next t ∧ t.Holds s.cfg (2 ^ s.cfg.n - 1) :=
  ⟨_, exec_seta hlive, rfl, hlive, memWriteAll_masked s _, value_seta s⟩

theorem exec_rsta_holds {s : State} (hlive : s.fault = false) : ∃ t, exec .rsta s = .next t ∧ t.Holds s.cfg 0 :=
  ⟨_, exec_rsta hlive, rfl, hlive, rawWriteAll_zero_masked s, value_rsta s⟩

theorem exec_flpa_holds {s : State} (hlive : s.fault = false) (hm : s.Masked) :
    ∃ t, exec .flpa s = .next t ∧ t.Holds s.cfg (2 ^ s.cfg.n - 1 - s.value) :=
  ⟨_, exec_flpa hlive, rfl, hlive, memWriteAll_masked s _, value_flpa hm⟩

/-! ## The mutators on the integer V (42_mutators.md R119) -/

/-- A command whose integer statement writes V does so on the words. -/
theorem exec_value {s : State} {i : Instr} {v : Nat} (hm : s.Masked) (hwf : i.wf s.cfg = true)
    (hint : intExec i s.intBlock = ({ s.intBlock with v := v }, .done)) : ∃ t, exec i s = .next t ∧ t.value = v := by
  obtain ⟨t, ht, hview, -⟩ := wordArrayRefinesTheIntegerView i s hm hwf
  rw [hint] at hview
  exact ⟨t, ht, congrArg IntBlock.v hview⟩

theorem testBit_eq_false_of_ge {n v q : Nat} (hv : v < 2 ^ n) (hq : ¬q < n) : v.testBit q = false :=
  Nat.testBit_lt_two_pow (Nat.lt_of_lt_of_le hv (Nat.pow_le_pow_right Nat.two_pos (Nat.le_of_not_lt hq)))

theorem full_sub_eq_xor {n v : Nat} (hv : v < 2 ^ n) : 2 ^ n - 1 - v = v ^^^ (2 ^ n - 1) := by
  have hsub : 2 ^ n - 1 - v = 2 ^ n - (v + 1) := by omega
  refine Nat.eq_of_testBit_eq fun q => ?_
  rw [hsub, Nat.testBit_two_pow_sub_succ hv, Nat.testBit_xor, Nat.testBit_two_pow_sub_one]
  by_cases hq : q < n
  · simp [hq]
  · simp [hq, testBit_eq_false_of_ge hv hq]

/-- The two forms of clearing a bit: the model's, and R119's with the complement below 2^N. -/
theorem or_xor_two_pow_eq {n v pos : Nat} (hv : v < 2 ^ n) (hp : pos < n) :
    (v ||| 2 ^ pos) ^^^ 2 ^ pos = v &&& ((2 ^ n - 1) ^^^ 2 ^ pos) := by
  refine Nat.eq_of_testBit_eq fun q => ?_
  rw [Nat.testBit_xor, Nat.testBit_or, Nat.testBit_and, Nat.testBit_xor, Nat.testBit_two_pow_sub_one, Nat.testBit_two_pow]
  by_cases hq : q < n
  · by_cases e : pos = q <;> simp [hq, e]
  · have hne : pos ≠ q := by omega
    simp [hne, testBit_eq_false_of_ge hv hq]

/-! ## Counting and scanning after a mutator -/

theorem countBelow_two_pow {n pos : Nat} (hp : pos < n) : countBelow n (2 ^ pos).testBit = 1 := by
  have hone : (Finset.range n).filter (fun p => (2 ^ pos).testBit p = true) = {pos} := by
    ext p
    simp only [Finset.mem_filter, Finset.mem_range, Nat.testBit_two_pow, decide_eq_true_eq, Finset.mem_singleton]
    omega
  rw [countBelow_eq_card, hone, Finset.card_singleton]

theorem countBelow_full (n : Nat) : countBelow n (2 ^ n - 1).testBit = n :=
  countBelow_eq_iff.mpr fun p hp => by rw [Nat.testBit_two_pow_sub_one, decide_eq_true hp]

/-- The complement has a 1 bit where V has a 0 bit. -/
theorem countBelow_complement {n v : Nat} (hv : v < 2 ^ n) :
    countBelow n (2 ^ n - 1 - v).testBit = n - countBelow n v.testBit := by
  have hnot : countBelow n (2 ^ n - 1 - v).testBit = countBelow n fun p => !v.testBit p :=
    countBelow_congr fun p hp => by
      rw [full_sub_eq_xor hv, Nat.testBit_xor, Nat.testBit_two_pow_sub_one, decide_eq_true hp, Bool.xor_true]
  have hsum := List.length_eq_countP_add_countP v.testBit (l := List.range n)
  simp only [List.length_range, Bool.not_eq_true, Bool.decide_eq_false] at hsum
  rw [hnot, countBelow, countBelow]
  omega

theorem State.FirstBit.le {s : State} {b : Bool} {k k' : Nat} (hk : s.FirstBit b k) (hk' : s.FirstBit b k') : k ≤ k' := by
  obtain ⟨hle, -, hmiss⟩ := hk
  obtain ⟨-, hhit, -⟩ := hk'
  refine Nat.le_of_not_lt fun hlt => (Bool.eq_not_self b).mp ?_
  exact (hhit (Nat.lt_of_lt_of_le hlt hle)).symm.trans (hmiss k' hlt)

theorem State.FirstBit.unique {s : State} {b : Bool} {k k' : Nat} (hk : s.FirstBit b k) (hk' : s.FirstBit b k') :
    k = k' :=
  Nat.le_antisymm (hk.le hk') (hk'.le hk)

section
variable {s : State} {k : Nat}

theorem exec_count_eq (hlive : s.fault = false) (hm : s.Masked) (hk : countBelow s.cfg.n s.value.testBit = k) :
    exec .count s = .next (respond s (.ofIdx k)) :=
  hk ▸ exec_count hlive hm

theorem exec_ffo_eq (hlive : s.fault = false) (hm : s.Masked) (hk : s.FirstBit true k) :
    exec .ffo s = .next (respond s (.ofIdx k)) := by
  obtain ⟨k', ht, hk'⟩ := exec_ffo hlive hm
  rw [hk.unique hk', ht]

theorem exec_ffz_eq (hlive : s.fault = false) (hm : s.Masked) (hk : s.FirstBit false k) :
    exec .ffz s = .next (respond s (.ofIdx k)) := by
  obtain ⟨k', ht, hk'⟩ := exec_ffz hlive hm
  rw [hk.unique hk', ht]

end

/-! ## The statements -/

/-- Settles O10: an answer says fault exactly in a halted block, and fits its ports. -/
theorem everyStepKeepsTheInvariant : Obligations.EveryStepKeepsTheInvariant :=
  fun _ _ hs ht => ⟨step_keeps (P := State.Inv) (fun _ _ h => h) (fun s _ => resetFor_inv s.cfg) (fun _ _ _ => exec_inv)
    (fun _ => illegalOpcode_inv) hs ht, step_cfg ht⟩

/-- Settles O11: by induction on the run, from the reset state. -/
theorem everyCommandKeepsTheMaskingInvariant : Obligations.EveryCommandKeepsTheMaskingInvariant :=
  ⟨fun _ _ _ => exec_masked, fun s => resetFor_masked s.cfg,
    fun c _ k t => run_invariant (P := State.Masked) (fun _ _ => step_masked) k _ t (resetFor_masked c)⟩

/-- Settles O40: a word that each of the three writes is masked by the writer, or 0. -/
theorem wholeSetMutatorsWriteEveryWord : Obligations.WholeSetMutatorsWriteEveryWord := by
  intro s hlive _
  have hw := s.cfg.w_pos
  refine ⟨_, _, _, exec_seta hlive, exec_rsta hlive, exec_flpa hlive, rfl, rfl, rfl, by simp, by simp, by simp,
    fun j hj => ?_, ?_, fun j hj => memRead_rawWriteAll s _ hj, fun j hj => ?_⟩
  · rw [memRead_respond, memRead_memWriteAll s _ (by omega), ones_and_wMask, wMask_below_top (by omega)]
  · rw [memRead_respond, memRead_memWriteAll s _ (by omega), ones_and_wMask, wMask_top]
  · rw [memRead_respond, memRead_memWriteAll s _ hj, notWord, BitVec.and_assoc, ones_and_wMask]

/-- Settles O41: each of the three stores a word that differs from the old one in bit `pos` at most. -/
theorem bitMutatorsChangeOneBit : Obligations.BitMutatorsChangeOneBit := by
  intro s pos val hlive hm hp
  obtain ⟨a, ha, hset⟩ := exec_setb hlive hm hp val
  obtain ⟨b, hb, hclear⟩ := exec_rstb hlive hm hp
  obtain ⟨f, hf, hflip⟩ := exec_flpb hlive hm hp
  have hframe {v : Bool} {t : State} (h : BitWritten s pos v t) :
      t = { s with words := t.words, rsps := s.rsps ++ [⟨false, false, 0, 0⟩] } ∧ t.Masked ∧
        (∀ q, q ≠ pos → t.bit q = s.bit q) ∧ ∀ j, j ≠ pos / s.cfg.ww → memRead t j = memRead s j :=
    ⟨h.frame, h.masked, fun _ => h.bit_other, h.word_eq⟩
  refine ⟨a, b, f, ha, hb, hf, ?_, hset.bit_self, hclear.bit_self, hflip.bit_self⟩
  simp only [List.forall_mem_cons, List.not_mem_nil, false_imp_iff, implies_true, and_true]
  exact ⟨hframe hset, hframe hclear, hframe hflip⟩

/-- Settles O42: the commands refine their integer statements, which are R119's up to two identities of bits. -/
theorem mutatorsInTheIntegerView : Obligations.MutatorsInTheIntegerView := by
  intro s pos hlive hm hp
  have hwf : s.cfg.fitsPos pos = true := decide_eq_true (Nat.lt_trans hp s.cfg.n_lt_two_pow_pw)
  have hlt := value_lt_of_masked hm
  have hint : ¬s.intBlock.fault = true := Bool.eq_false_iff.mp hlive
  have hcheck {a b c : IntBlock × Response} : (if s.intBlock.fault then c else if pos < s.cfg.n then a else b) = a :=
    (if_neg hint).trans (if_pos hp)
  obtain ⟨f, hf, hflip⟩ := exec_value (i := .flpa) (v := 2 ^ s.cfg.n - 1 - s.value) hm rfl (if_neg hint)
  obtain ⟨c, hc, hclear⟩ := exec_value (i := .setb pos false) (v := (s.value ||| 2 ^ pos) ^^^ 2 ^ pos) hm hwf hcheck
  exact ⟨exec_value hm rfl (if_neg hint), exec_value hm rfl (if_neg hint),
    ⟨f, hf, hflip, hflip.trans (full_sub_eq_xor hlt)⟩, exec_value hm hwf hcheck,
    ⟨c, c, hc, hc, hclear.trans (or_xor_two_pow_eq hlt hp), rfl⟩, exec_value hm hwf hcheck⟩

/-- Settles O43: RSTA leaves no bit, and SETB then writes one. -/
theorem singleBitLaw : Obligations.SingleBitLaw := by
  intro s pos hlive _ hp
  obtain ⟨z, hz, hzcfg, hzlive, hzm, hzv⟩ := exec_rsta_holds hlive
  obtain ⟨t, ht, hset⟩ := exec_setb hzlive hzm (hzcfg ▸ hp) true
  have hcfg : t.cfg = s.cfg := hset.cfg_eq.trans hzcfg
  have hfault : t.fault = false := hset.fault_eq.trans hzlive
  have hm := hset.masked
  have hbit : ∀ q, t.bit q = (2 ^ pos).testBit q := by
    intro q
    rw [hset.bit_eq, ← testBit_value hzm, hzv, Nat.zero_testBit, Nat.testBit_two_pow]
    by_cases e : q = pos
    · simp [e]
    · simp [e, Ne.symm e]
  have hvalue := value_eq_of_bits hm hbit
  rw [← hcfg] at hp ⊢
  refine ⟨t, execList_pair hz ht, hvalue, ?_, fun q hq hne => ?_, ?_, exec_ffo_eq hfault hm ?_⟩
  · rw [exec_test hfault hm hp, hvalue, Nat.testBit_two_pow_self]
    rfl
  · rw [exec_test hfault hm hq, hvalue, Nat.testBit_two_pow_of_ne hne.symm]
    rfl
  · exact exec_count_eq hfault hm (by rw [hvalue, countBelow_two_pow hp])
  · refine ⟨Nat.le_of_lt hp, fun _ => hset.bit_self, fun q hq => ?_⟩
    rw [hbit, Nat.testBit_two_pow_of_ne (Nat.ne_of_gt hq), Bool.not_true]

/-- Settles O44: SETA sets every bit below N, and RSTB then clears one. -/
theorem fullSetLaw : Obligations.FullSetLaw := by
  intro s hlive _
  obtain ⟨t, ht, hcfg, hlive', hm, hv⟩ := exec_seta_holds hlive
  rw [← hcfg] at hv ⊢
  have hbits := (value_eq_full_iff hm).mp hv
  refine ⟨⟨t, ht, hv, ?_, ?_, ?_, ?_⟩, fun k hk => ?_⟩
  · rw [exec_all hlive' hm, hv, beq_self_eq_true]
    rfl
  · exact exec_count_eq hlive' hm (by rw [hv, countBelow_full])
  · exact exec_ffz_eq hlive' hm ⟨Nat.le_refl _, fun h => absurd h (Nat.lt_irrefl _), hbits⟩
  · exact exec_ffo_eq hlive' hm ⟨Nat.zero_le _, hbits 0, nofun⟩
  · obtain ⟨u, hu, hclear⟩ := exec_rstb hlive' hm hk
    refine ⟨u, execList_pair ht hu, exec_ffz_eq (hclear.fault_eq.trans hlive') hclear.masked ?_⟩
    refine ⟨hclear.cfg_eq ▸ Nat.le_of_lt hk, fun _ => hclear.bit_self, fun q hq => ?_⟩
    rw [hclear.bit_other (Nat.ne_of_lt hq)]
    exact hbits q (Nat.lt_trans hq hk)

/-- Settles O45: complementing V, or a bit, twice gives it back, and a masked block has one word array for each V. -/
theorem flippingTwiceRestores : Obligations.FlippingTwiceRestores := by
  intro s hlive hm
  have hlt := value_lt_of_masked hm
  obtain ⟨t, ht, hcfg, hlive', hm', hv⟩ := exec_flpa_holds hlive hm
  refine ⟨?_, fun pos hp => ?_, t, _, ht, exec_count hlive hm, countBelow_le _ _, ?_⟩
  · obtain ⟨u, hu, hcfg', hlive'', hm'', hv'⟩ := exec_flpa_holds hlive' hm'
    refine ⟨u, execList_pair ht hu, words_eq_of_value hm'' hm (hcfg'.trans hcfg) ?_, hlive''⟩
    rw [hv', hcfg, hv, Nat.sub_sub_self (Nat.le_sub_one_of_lt hlt)]
  · obtain ⟨u, hu, hflip⟩ := exec_flpb hlive hm hp
    obtain ⟨v, hv, hflip'⟩ := exec_flpb (hflip.fault_eq.trans hlive) hflip.masked (hflip.cfg_eq ▸ hp)
    refine ⟨v, execList_pair hu hv, ?_, hflip'.fault_eq.trans (hflip.fault_eq.trans hlive)⟩
    refine words_eq_of_bits hflip'.masked hm (hflip'.cfg_eq.trans hflip.cfg_eq) fun q => ?_
    by_cases e : q = pos
    · rw [e, hflip'.bit_self, hflip.bit_self, Bool.not_not]
    · rw [hflip'.bit_other e, hflip.bit_other e]
  · exact exec_count_eq hlive' hm' (by rw [hcfg, hv, countBelow_complement hlt])

/-- Settles O46: the two have one body, and the assembler puts in the 1. -/
theorem rstbIsSetbFalse : Obligations.RstbIsSetbFalse :=
  ⟨exec_rstb_eq, fun _ _ => rfl⟩

end Sys2Proof.Machine

end

/-! SUPPORT and PROOFS. The statements of 43_word_access.md: reading and writing one word, and copying a block by its image. -/

section

namespace Sys2Proof.Machine

/-! ## One word (43_word_access.md R131) -/

theorem exec_wrw {s : State} (hlive : s.fault = false) {idx : Nat} (hi : idx < s.cfg.w) (d : Word) :
    exec (.wrw idx d) s = .next (respond (memWrite s idx d) .done) :=
  next_unlessHalted hlive (atWord_of_lt hi _)

/-! ## The words of an image, written back in order (43_word_access.md R132) -/

theorem execList_append {is js : List Instr} {s t : State} (h : execList is s = .next t) :
    execList (is ++ js) s = execList js t := by
  induction is generalizing s with
  | nil => rw [Host.Outcome.next.inj h, List.nil_append]
  | cons i is ih =>
    obtain ⟨u, hu, -⟩ := exec_answers i s
    simp only [List.cons_append, execList, hu] at h ⊢
    exact ih h

/-- `t` is a live block of the instance of `s` whose words below `k` are those of `f`, each under its mask. -/
structure WordsWritten (s : State) (f : Nat → Word) (k : Nat) (t : State) : Prop where
  cfg_eq : t.cfg = s.cfg
  live : t.fault = false
  length_eq : t.words.length = s.cfg.w
  read_eq : ∀ j, j < k → memRead t j = f j &&& wMask s.cfg j

section
variable {s t : State} {f : Nat → Word} {k : Nat}

/-- WRW k after the words below k leaves them as they are and adds word k. -/
theorem WordsWritten.exec_wrw_succ (h : WordsWritten s f k t) (hk : k < s.cfg.w) :
    ∃ u, exec (.wrw k (f k)) t = .next u ∧ WordsWritten s f (k + 1) u := by
  obtain ⟨hcfg, hlive, hlen, hread⟩ := h
  refine ⟨_, exec_wrw hlive (hcfg ▸ hk) _, hcfg, hlive, by simpa using hlen, fun j hj => ?_⟩
  rw [memRead_respond]
  obtain hlt | rfl := Nat.lt_succ_iff_lt_or_eq.mp hj
  · rw [memRead_memWrite_other t _ (Nat.ne_of_lt hlt), hread j hlt]
  · rw [memRead_memWrite_same t _ (hlen ▸ hk), hcfg]

theorem execList_wrw_range (hlive : s.fault = false) (hlen : s.words.length = s.cfg.w) (f : Nat → Word)
    (hk : k ≤ s.cfg.w) :
    ∃ t, execList ((List.range k).map fun j => .wrw j (f j)) s = .next t ∧ WordsWritten s f k t := by
  induction k with
  | zero => exact ⟨s, rfl, rfl, hlive, hlen, nofun⟩
  | succ k ih =>
    obtain ⟨t, ht, hwritten⟩ := ih (Nat.le_of_succ_le hk)
    obtain ⟨u, hu, hwritten'⟩ := hwritten.exec_wrw_succ hk
    refine ⟨u, ?_, hwritten'⟩
    rw [List.range_succ, List.map_append, execList_append ht]
    simp [execList, hu]

/-- LDI writes the only word; LDA takes its elements in reading order, so the reversed image puts element j in word j. -/
theorem exec_loadBack (hlive : s.fault = false) (hlen : s.words.length = s.cfg.w) {img : List Word}
    (himg : img.length = s.cfg.w) :
    ∃ t, exec (loadBack s.cfg img) s = .next t ∧ WordsWritten s (fun j => img.getD j 0) s.cfg.w t := by
  by_cases hn : s.cfg.n ≤ 64
  · rw [loadBack, if_pos hn]
    refine ⟨_, exec_ldi hlive hn _, rfl, hlive, by simpa using hlen, fun j hj => ?_⟩
    obtain rfl : j = 0 := Nat.lt_one_iff.mp (Config.w_eq_one hn ▸ hj)
    rw [memRead_respond, memRead_memWrite_same s _ (hlen ▸ hj), BitVec.and_assoc, ones_and_wMask]
  · rw [loadBack, if_neg hn]
    refine ⟨_, exec_lda hlive (Nat.lt_of_not_le hn) _, rfl, hlive, by simp, fun j hj => ?_⟩
    rw [memRead_respond, memRead_memWriteAll s _ hj, List.getD_reverse _ (by omega), himg,
      Nat.sub_sub_self (Nat.le_sub_one_of_lt hj)]

/-- Two instances of one N have the same words and masks. -/
theorem WordsWritten.words_eq {a : State} (h : WordsWritten s f s.cfg.w t) (ha : a.Masked) (hn : s.cfg.n = a.cfg.n)
    (hf : ∀ j, j < a.cfg.w → f j &&& wMask a.cfg j = memRead a j) : t.words = a.words := by
  obtain ⟨hw, -, hmask⟩ := params_congr hn
  refine words_ext (by rw [h.length_eq, ha.1, hw]) fun j hj => ?_
  rw [h.length_eq] at hj
  rw [h.read_eq j hj, hmask, hf j (hw ▸ hj)]

end

/-! ## The statements -/

/-- Settles O48: either way of writing back puts image word j, masked, in word j, and A's word array is those words. -/
theorem imageCopiesABlock : Obligations.ImageCopiesABlock := by
  intro a b img ha hb hn hlive himg hcopy
  rw [imageWords_eq_words ha.1] at hcopy ⊢
  obtain ⟨hw, -, -⟩ := params_congr hn
  refine ⟨fun hf j hj => exec_rdw hf hj, ?_, ?_⟩
  · obtain ⟨t, ht, h⟩ := execList_wrw_range hlive hb.1 (fun j => img.getD j 0) (Nat.le_refl _)
    exact ⟨t, ht, h.words_eq ha hn hcopy, h.live⟩
  · obtain ⟨t, ht, h⟩ := exec_loadBack hlive hb.1 (himg.trans hw.symm)
    exact ⟨t, ht, h.words_eq ha hn hcopy, h.live⟩

/-- Settles O47: WRW is the masked writer, and the RDW that follows answers the word it stored. -/
theorem wordReadAndMaskedWordWrite : Obligations.WordReadAndMaskedWordWrite := by
  intro s idx d hlive hm hi
  have hstored : memRead (memWrite s idx d) idx = d &&& wMask s.cfg idx := memRead_memWrite_same s d (hm.1 ▸ hi)
  refine ⟨⟨exec_rdw hlive hi, hm.2 idx hi⟩, _, exec_wrw hlive hi d, rfl, memWrite_masked hm idx d, hstored,
    fun j => memRead_memWrite_other s d, ?_⟩
  rw [← hstored]
  exact exec_rdw (s := respond (memWrite s idx d) .done) hlive hi

end Sys2Proof.Machine

end

/-! SUPPORT and PROOFS. The statements of 60_exceptions.md: which commands fault and how, the halted state, and the block between
commands. -/

section

namespace Sys2Proof.Machine

/-! ## Between commands (60_exceptions.md R153, 70_reset_and_hazards.md R169) -/

theorem step_of_idle {s : State} (hm : s.cmds = []) : step s = .next s := by
  simp [step, fetch, hm]

/-! ## The halted state (60_exceptions.md R144, R146, R147) -/

/-- Reserved opcodes are refused like the commands: the halted state comes before the opcode. -/
theorem step_of_halted {s : State} {m : Command} {rest : List HostMove} (hm : s.cmds = .command m :: rest)
    (hf : s.fault = true) : step s = .next (refuse { s with cmds := rest }) := by
  cases hd : decode s.cfg m with
  | ok i => exact (step_of_decode_ok hm hd).trans (exec_of_halted (s := { s with cmds := rest }) hf i)
  | error e =>
    exact (step_of_decode_error hm hd).trans
      (congrArg Host.Outcome.next (unlessHalted_of_halted (s := { s with cmds := rest }) hf _))

/-- `t` is halted as `s` is, with its cause, its words and its instance, and no reset is pending in it. -/
structure HaltedAs (s t : State) : Prop where
  fault_eq : t.fault = true
  fcause_eq : t.fcause = s.fcause
  words_eq : t.words = s.words
  cfg_eq : t.cfg = s.cfg
  noReset : ∀ m, m ∈ t.cmds → m ≠ .reset

/-- Without a reset a halted block waits or refuses. -/
theorem HaltedAs.of_step {s t u : State} (h : HaltedAs s t) (hu : step t = .next u) : HaltedAs s u := by
  have hno := h.noReset
  match hm : t.cmds with
  | [] =>
    obtain rfl := Host.Outcome.next.inj ((step_of_idle hm).symm.trans hu)
    exact h
  | .reset :: rest => exact absurd rfl (hno .reset (hm ▸ List.mem_cons_self))
  | .command m :: rest =>
    obtain rfl := Host.Outcome.next.inj ((step_of_halted hm h.fault_eq).symm.trans hu)
    exact { h with noReset := fun c hc => hno c (hm ▸ List.mem_cons_of_mem _ hc) }

/-! ## The statements -/

/-- Settles O26: within the contract a command completes, outside it takes the fault of its row. -/
theorem faultExactlyOutsideTheContract : Obligations.FaultExactlyOutsideTheContract := by
  intro i s hlive
  cases hl : legal s.cfg i
  case true =>
    obtain ⟨ws, r, ht, -⟩ := exec_of_legal hlive hl
    exact ⟨_, ht, by simp [hlive], fun _ => rfl, nofun⟩
  case false => exact ⟨_, exec_of_illegal hlive hl, by simp, nofun, fun _ => ⟨rfl, rfl⟩⟩

/-- Settles O27, as an invariant of every run: each step that is no reset leaves the block halted as it was. -/
theorem onlyResetLeavesTheHaltedState : Obligations.OnlyResetLeavesTheHaltedState := by
  intro k s t hf hno ht
  obtain ⟨hfault, hcause, hwords, hcfg, -⟩ :=
    run_invariant (P := HaltedAs s) (fun _ _ => HaltedAs.of_step) k s t ⟨hf, rfl, rfl, rfl, hno⟩ ht
  exact ⟨hfault, hcause, hwords, hcfg⟩

/-- Settles O21: the refusal is the step, and its response is (1, 0, 0, 0). -/
theorem haltedBlockRefusesEveryCommand : Obligations.HaltedBlockRefusesEveryCommand :=
  fun _ _ _ => step_of_halted

/-- Settles O22: with no move pending the fetch answers idle. -/
theorem blockHoldsItsStateBetweenCommands : Obligations.BlockHoldsItsStateBetweenCommands :=
  fun _ => step_of_idle

/-- Settles O24: an index out of range is outside the contract, and its command is no load. -/
theorem outOfRangeIndexTakesIndexRange : Obligations.OutOfRangeIndexTakesIndexRange := by
  rintro s u k val d hlive rfl
  refine ⟨fun hn => ?_, fun hw => ?_⟩
  · have hk : decide (k < s.cfg.n) = false := decide_eq_false (Nat.not_lt.mpr hn)
    exact ⟨exec_of_illegal hlive hk, exec_of_illegal hlive hk, exec_of_illegal hlive hk, exec_of_illegal hlive hk⟩
  · have hk : decide (k < s.cfg.w) = false := decide_eq_false (Nat.not_lt.mpr hw)
    exact ⟨exec_of_illegal hlive hk, exec_of_illegal hlive hk⟩

end Sys2Proof.Machine

end

/-! SUPPORT and PROOFS. The statements of 70_reset_and_hazards.md: reset as a move and at the port, the end of every run, and
when a run succeeds. -/

section

namespace Sys2Proof.Machine

variable {s : State} {rest : List HostMove}

/-! ## One host move (70_reset_and_hazards.md R160, R168) -/

theorem step_of_reset (hm : s.cmds = .reset :: rest) : step s = .next { State.resetFor s.cfg with cmds := rest } := by
  simp [step, fetch, hm, hardReset]

/-- A presented command, a reserved opcode too, gets one response, and the later moves stand. -/
theorem step_of_command {m : Command} (hm : s.cmds = .command m :: rest) :
    ∃ t, step s = .next t ∧ Answered { s with cmds := rest } t := by
  cases hd : decode s.cfg m with
  | ok i =>
    rw [step_of_decode_ok hm hd]
    exact exec_answers i _
  | error e => exact ⟨_, step_of_decode_error hm hd, unlessHalted_answered (takeFault_answered _ _)⟩

/-- Whatever the next move is, one step takes it; if it is no reset, one response more stands. -/
theorem step_takes_move {m : HostMove} (hm : s.cmds = m :: rest) :
    ∃ t, step s = .next t ∧ t.cmds = rest ∧ (m ≠ .reset → t.rsps.length = s.rsps.length + 1) := by
  cases m with
  | reset => exact ⟨_, step_of_reset hm, rfl, fun h => absurd rfl h⟩
  | command m =>
    obtain ⟨t, ht, -, hcmds, r, hrsps⟩ := step_of_command hm
    exact ⟨t, ht, hcmds, fun _ => by simp [hrsps]⟩

/-! ## A whole run (70_reset_and_hazards.md R167) -/

theorem run_takes_moves {moves : List HostMove} (hm : s.cmds = moves) :
    ∃ t, core.run moves.length s = .next t ∧ t.cmds = [] ∧ t.cfg = s.cfg ∧
      ((∀ m, m ∈ moves → m ≠ .reset) → t.rsps.length = s.rsps.length + moves.length) := by
  induction moves generalizing s with
  | nil => exact ⟨s, run_zero s, hm, rfl, fun _ => rfl⟩
  | cons m moves ih =>
    obtain ⟨u, hu, hrest, hone⟩ := step_takes_move hm
    obtain ⟨t, ht, hend, hcfg, hall⟩ := ih hrest
    refine ⟨t, (run_succ hu _).trans ht, hend, hcfg.trans (step_cfg hu), fun hno => ?_⟩
    obtain ⟨hnow, hlater⟩ := List.forall_mem_cons.mp hno
    rw [hall hlater, hone hnow, List.length_cons]
    omega

/-! ## When a run succeeds (70_reset_and_hazards.md R169) -/

theorem State.Inv.runAgrees (hs : s.Inv) : s.RunAgrees := hs.2.2.1

theorem step_inv {t : State} (hs : s.Inv) (ht : step s = .next t) : t.Inv :=
  (everyStepKeepsTheInvariant s t hs ht).1

theorem State.Inv.fault_eq_false_iff (hs : s.Inv) : s.fault = false ↔ ∀ r, r ∈ s.rsps → r.fault = false := by
  simpa using not_congr hs.runAgrees

/-! ## Reset at the port (70_reset_and_hazards.md R160, R163) -/

/-- Reset comes before whatever the port does, a command in flight or one presented. -/
theorem tick_reset {i : PortIn} (hr : i.rst = true) (p : PortState) :
    tick p i = .next ({ p with core := hardReset p.core, inFlight := none }, outputs p.core false none) := by
  simp [tick, hr]

/-! ## The statements -/

/-- Settles O51: by induction on the list of moves, one step for each. -/
theorem everyRunEnds : Obligations.EveryRunEnds := fun _ => run_takes_moves rfl

/-- Settles O52: the machine's invariant holds at reset and along the run, and links FAULT with the responses. -/
theorem runSucceedsIffNoResponseFaulted : Obligations.RunSucceedsIffNoResponseFaulted := by
  intro c moves k t ht
  have hstart : State.Inv { State.resetFor c with cmds := moves } := resetFor_inv c
  have hinv : t.Inv := run_invariant (P := State.Inv) (fun _ _ => step_inv) k _ t hstart ht
  exact hinv.fault_eq_false_iff

/-- Settles O8: the fetch takes the reset move, and the step is the hard reset. -/
theorem resetMoveGivesTheResetState : Obligations.ResetMoveGivesTheResetState := fun _ _ => step_of_reset

/-- Settles O54: the edge is the hard reset, with nothing left in flight and no response. -/
theorem resetAtThePortDropsTheCommand : Obligations.ResetAtThePortDropsTheCommand :=
  fun p _ hr => ⟨_, _, tick_reset hr p, rfl, rfl, rfl, rfl⟩

end Sys2Proof.Machine

end
